-- ==== Sys2Proof/Word.lean ====
section
/-! DEFINITION. The words of ULIDC: value operands, character cells, digits, and the two port words. -/

namespace Sys2Proof

/-- A 64-bit value field of a request or a response (30_encoding.md R61, R62). -/
abbrev Word := BitVec 64

/-- An 8-bit character cell (30_encoding.md R63, R64). -/
abbrev Byte := BitVec 8

/-- A digit value 0 to 31, five bits (00_scope.md R7 DIGIT_BITS; 10_state.md R23, R31). -/
abbrev Digit := BitVec 5

/-- The flattened request REQ, 416 bits, bit 0 the least significant (30_encoding.md R61). -/
abbrev ReqWord := BitVec 416

/-- The flattened response RSP, 416 bits, bit 0 the least significant (30_encoding.md R62). -/
abbrev RspWord := BitVec 416

end Sys2Proof
end

