-- ==== Sys2Proof/Config.lean ====
section
/-! DEFINITION. The parameters of ULIDC: those the spec fixes (00_scope.md R7, R8) and those it leaves open. -/

namespace Sys2Proof.Config

/-- TS_BITS, the width of the timestamp field (00_scope.md R7). -/
@[simp] abbrev tsBits : Nat := 48

/-- R1_BITS and R2_BITS, the width of `random1` and of `random2` (00_scope.md R7). -/
@[simp] abbrev randBits : Nat := 40

/-- TS_CHARS, the characters of the timestamp field (00_scope.md R7). -/
@[simp] abbrev tsChars : Nat := 10

/-- R1_CHARS and R2_CHARS, the characters of `random1` and of `random2` (00_scope.md R7). -/
@[simp] abbrev randChars : Nat := 8

/-- TEXT_LEN, the characters of the textual form (00_scope.md R7). -/
@[simp] abbrev textLen : Nat := 26

/-- STR_CELLS, the character cells of a string operand or result (00_scope.md R8, decision D5). -/
@[simp] abbrev strCells : Nat := 26

/-- LATENCY, left open by the spec: the cycles from acceptance of a request to the first cycle its response is
valid, constant per implementation (00_scope.md R8, 70_reset_and_hazards.md R204). No value of it is known here.
The step has no time and does not read it (DEDUCED, log 2). -/
opaque latency : Nat

/-- One less than N_INSTANCES, left open by the spec (00_scope.md R8). No value of it is known here. -/
opaque furtherInstances : Nat

/-- N_INSTANCES, the independent copies of ULIDC a system holds, at least 1 (00_scope.md R8, 60_exceptions.md R193). -/
def nInstances : Nat := furtherInstances + 1

end Sys2Proof.Config
end

