-- ==== Sys2Proof/Syntax.lean ====
section
/-! DEFINITION. The eight operations of ULIDC with the operands each reads (30_encoding.md R65, R67). -/

namespace Sys2Proof

/-- The field shape that `wsel` selects: T for `wsel` = 0, R for `wsel` = 1 (30_encoding.md R66). -/
inductive Shape where
  | T
  | R
  deriving DecidableEq, Repr

/-- A string operand as it reaches the block: its length, 0 to 255, and the cells at positions below the length
that exist, position 0 first (30_encoding.md R63). Cells at and beyond the length are no part of it (R69;
DEDUCED, log 7). -/
structure StrOperand where
  slen  : BitVec 8
  cells : List Byte
  deriving DecidableEq, Repr

/-- One constructor per operation code of 30_encoding.md R65, with the operands R67 says it reads. -/
inductive Instr where
  /-- ENCODE, op 0x1 (43_codec.md R150). -/
  | encode (high low : Word)
  /-- DECODE, op 0x2 (43_codec.md R152). -/
  | decode (text : StrOperand)
  /-- SPLIT, op 0x3 (40_splitter.md R91). -/
  | split (high low : Word)
  /-- JOIN, op 0x4 (40_splitter.md R92). -/
  | join (time random1 random2 : Word)
  /-- TODIG, op 0x5 (41_radix_engine.md R113). -/
  | toDig (shape : Shape) (value : Word)
  /-- FROMDIG, op 0x6 (41_radix_engine.md R114). -/
  | fromDig (shape : Shape) (digits : StrOperand)
  /-- XLITF, op 0x7 (42_transliterator.md R131). -/
  | xlitF (str : StrOperand)
  /-- XLITR, op 0x8 (42_transliterator.md R132). -/
  | xlitR (str : StrOperand)
  deriving DecidableEq, Repr

end Sys2Proof
end

