-- ==== Sys2Proof/WellFormed.lean ====
section
/-! DEFINITION. The well-formed instructions: those whose string operand has exactly the cells its length shows. -/

namespace Sys2Proof

/-- A string operand carries one cell for each position below its length, and never more than the 26 cells that
exist (30_encoding.md R63). -/
def StrOperand.wf (s : StrOperand) : Bool :=
  s.cells.length == min s.slen.toNat Config.strCells

/-- The well-formed instructions: every value operand is a 64-bit field used as it stands (30_encoding.md R76), so
only a string operand can be ill-formed. -/
def Instr.wf : Instr → Bool
  | .encode _ _ => true
  | .decode text => text.wf
  | .split _ _ => true
  | .join _ _ _ => true
  | .toDig _ _ => true
  | .fromDig _ digits => digits.wf
  | .xlitF str => str.wf
  | .xlitR str => str.wf

end Sys2Proof
end

