-- ==== Sys2Proof/Decode.lean ====
section
/-! DEFINITION. The request decoder, total on all 2^416 words and rejecting reserved encodings by name
(30_encoding.md R61, R65, R68), and the encoder of well-formed instructions. -/

namespace Sys2Proof

/-! ### The fields of REQ (30_encoding.md R61) -/

/-- `op` is REQ[3:0]. -/
def Req.op (q : ReqWord) : BitVec 4 := q.extractLsb' 0 4

/-- `wsel` is REQ[4]. -/
def Req.wsel (q : ReqWord) : BitVec 1 := q.extractLsb' 4 1

/-- `rsv` is REQ[7:5]. -/
def Req.rsv (q : ReqWord) : BitVec 3 := q.extractLsb' 5 3

/-- `slen` is REQ[15:8]. -/
def Req.slen (q : ReqWord) : BitVec 8 := q.extractLsb' 8 8

/-- `a` is REQ[79:16]. -/
def Req.a (q : ReqWord) : Word := q.extractLsb' 16 64

/-- `b` is REQ[143:80]. -/
def Req.b (q : ReqWord) : Word := q.extractLsb' 80 64

/-- `c` is REQ[207:144]. -/
def Req.c (q : ReqWord) : Word := q.extractLsb' 144 64

/-- `s[i]` is REQ[215+8i : 208+8i]. -/
def Req.cell (q : ReqWord) (i : Nat) : Byte := q.extractLsb' (208 + 8 * i) 8

/-- The shape `wsel` stands for (30_encoding.md R66). -/
def Shape.ofWsel (w : BitVec 1) : Shape :=
  if w = 0 then .T else .R

/-- The string operand of a request: `s = s[0] s[1] ... s[slen-1]` of the cells that exist (30_encoding.md R63, R76). -/
def Req.str (q : ReqWord) : StrOperand :=
  { slen := Req.slen q
    cells := (List.range (min (Req.slen q).toNat Config.strCells)).map (Req.cell q) }

/-! ### The decoder -/

/-- Why a request selects no operation (30_encoding.md R68). -/
inductive DecodeReject where
  /-- `rsv` is not 0; checked for every `op` value. -/
  | reservedField (rsv : BitVec 3)
  /-- `op` is 0x0 or in 0x9 to 0xF. -/
  | reservedOp (op : BitVec 4)
  deriving DecidableEq, Repr

/-- The operation code map (30_encoding.md R65): a decoder reads `op` and `rsv` from REQ[7:0] and is done (R72).
-/
def decodeReq (q : ReqWord) : Except DecodeReject Instr :=
  if Req.rsv q ≠ 0 then .error (.reservedField (Req.rsv q))
  else match (Req.op q).toNat with
    | 1 => .ok (.encode (Req.a q) (Req.b q))
    | 2 => .ok (.decode (Req.str q))
    | 3 => .ok (.split (Req.a q) (Req.b q))
    | 4 => .ok (.join (Req.a q) (Req.b q) (Req.c q))
    | 5 => .ok (.toDig (Shape.ofWsel (Req.wsel q)) (Req.a q))
    | 6 => .ok (.fromDig (Shape.ofWsel (Req.wsel q)) (Req.str q))
    | 7 => .ok (.xlitF (Req.str q))
    | 8 => .ok (.xlitR (Req.str q))
    | _ => .error (.reservedOp (Req.op q))

/-- The instruction the decoder reads from the request whose low `nbits` bits are those of `w` and whose other bits
are 0 (log 15). REQ numbers its bits as the table does, bit 0 the least significant (30_encoding.md R61). -/
def decodeTableWord (nbits w : Nat) : Option Instr :=
  match decodeReq (BitVec.ofNat 416 (w % 2 ^ nbits)) with
  | .ok i => some i
  | .error _ => none

/-! ### The encoder -/

/-- The operation code of an instruction (30_encoding.md R65). -/
def opcode : Instr → BitVec 4
  | .encode _ _ => 0x1
  | .decode _ => 0x2
  | .split _ _ => 0x3
  | .join _ _ _ => 0x4
  | .toDig _ _ => 0x5
  | .fromDig _ _ => 0x6
  | .xlitF _ => 0x7
  | .xlitR _ => 0x8

/-- The `wsel` value of a shape (30_encoding.md R66). -/
def Shape.wsel : Shape → BitVec 1
  | .T => 0
  | .R => 1

/-- The number whose base-256 digits are the cells, cell 0 the lowest: cells stand in the ports from cell 0 upwards,
eight bits each (30_encoding.md R61, R62). -/
def cellsNat : List Byte → Nat
  | [] => 0
  | c :: cs => c.toNat + 256 * cellsNat cs

/-- The 26 cells of a port as one 208-bit slice, missing cells 0. -/
def packCells (cells : List Byte) : BitVec 208 := BitVec.ofNat 208 (cellsNat cells)

/-- The fields of REQ put together, each at its lowest bit; `rsv` is 0 (30_encoding.md R61). -/
def packReq (op : BitVec 4) (wsel : BitVec 1) (slen : BitVec 8) (a b c : Word) (cells : List Byte) : ReqWord :=
  op.setWidth 416 ||| (wsel.setWidth 416 <<< 4) ||| (slen.setWidth 416 <<< 8) ||| (a.setWidth 416 <<< 16) |||
    (b.setWidth 416 <<< 80) ||| (c.setWidth 416 <<< 144) ||| ((packCells cells).setWidth 416 <<< 208)

/-- The request of a well-formed instruction. The fields its operation does not read are 0, a choice among the words
with the same meaning (30_encoding.md R69; DESIGN CHOICE, log 8). -/
def encodeReq (i : Instr) : ReqWord :=
  match i with
  | .encode high low => packReq (opcode i) 0 0 high low 0 []
  | .decode text => packReq (opcode i) 0 text.slen 0 0 0 text.cells
  | .split high low => packReq (opcode i) 0 0 high low 0 []
  | .join time random1 random2 => packReq (opcode i) 0 0 time random1 random2 []
  | .toDig shape value => packReq (opcode i) shape.wsel 0 value 0 0 []
  | .fromDig shape digits => packReq (opcode i) shape.wsel digits.slen 0 0 0 digits.cells
  | .xlitF str => packReq (opcode i) 0 str.slen 0 0 0 str.cells
  | .xlitR str => packReq (opcode i) 0 str.slen 0 0 0 str.cells

end Sys2Proof
end

