-- ==== Sys2Proof/Machine/State.lean ====
section
/-! DEFINITION. What stands at the ports of ULIDC between two steps, as plain data. The block has no architectural
state: no register, no program counter, no flag, no memory (10_state.md R20, R25 to R33). -/

namespace Sys2Proof.Machine

/-- The four error kinds of a response (60_exceptions.md R180). -/
inductive ErrorKind where
  | invalidLength
  | invalidCharacter
  | fieldOverflow
  | illegalOp
  deriving DecidableEq, Repr

/-- A raised error: its kind and the position it reports, the five bits of `epos` (60_exceptions.md R181 to R184,
30_encoding.md R62). -/
structure OpError where
  kind : ErrorKind
  epos : BitVec 5
  deriving DecidableEq, Repr

/-- The results of an operation that ended with OK (30_encoding.md R62, R67). A field an operation does not write is
0, and the string it does not write is empty (R71). -/
structure Result where
  ra : Word := 0
  rb : Word := 0
  rc : Word := 0
  r  : List Byte := []
  deriving DecidableEq, Repr

/-- A response: the result record of the operation, or an error with its position, the sum that 30_encoding.md R71
names as its natural type. Its 416-bit port picture is `Response.toRsp`. -/
inductive Response where
  | ok (result : Result)
  | err (error : OpError)
  deriving DecidableEq, Repr

/-- What the host does to the block (60_exceptions.md R196; 70_reset_and_hazards.md R200, R202). -/
inductive HostEvent where
  /-- A request is presented and accepted: `req_valid` and `req_ready` are both 1, and REQ is sampled whole (R202). -/
  | request (req : ReqWord)
  /-- The host is ready for a response: `rsp_ready` is 1 (R202). -/
  | take
  /-- The reset input is asserted and released (R200). -/
  | reset
  deriving DecidableEq, Repr

/-- The ports of one instance of ULIDC. -/
structure State where
  /-- What the host will do, oldest first (DESIGN CHOICE, log 1). -/
  events    : List HostEvent
  /-- The responses to accepted requests that are not delivered yet, oldest first (70_reset_and_hazards.md R202). -/
  pending   : List Response
  /-- The responses delivered so far, oldest first: the result of a run (70_reset_and_hazards.md R206). -/
  delivered : List Response
  deriving DecidableEq, Repr

/-- The reasons the machine can stop with a fault: none. No error stops, locks or resets the block
(60_exceptions.md R187), and no case of the spec is treated as stuck (93_implementation_defined.md). -/
inductive Fault where
  deriving DecidableEq, Repr

/-- The reasons the model can give an instruction no meaning. -/
inductive Refusal where
  /-- Kept for the interface: an arm of `exec` without a meaning would answer it. No arm does, so nothing raises it
  (safe: a step that stops proves nothing false). -/
  | notModelled (mnemonic : String)
  deriving DecidableEq, Repr

/-- The block right after reset: no response pending and ready for a request (70_reset_and_hazards.md R200). That
nothing is presented and nothing was delivered is the model's choice (DESIGN CHOICE, log 6). -/
def State.reset : State := { events := [], pending := [], delivered := [] }

end Sys2Proof.Machine
end

