-- ==== Sys2Proof/Machine/Flags.lean ====
section
/-! DEFINITION. The outcome fields of a response. ULIDC has no flags, condition codes or predicates
(10_state.md R28); `status` and `epos` belong to one response and are all a flag computation could be here. -/

namespace Sys2Proof.Machine

/-- The outcome code of an error kind (60_exceptions.md R180). -/
def ErrorKind.code : ErrorKind → BitVec 3
  | .invalidLength => 1
  | .invalidCharacter => 2
  | .fieldOverflow => 3
  | .illegalOp => 4

/-- `RSP.status`: 0 for OK, else the code of the error kind (60_exceptions.md R180). -/
def Response.status : Response → BitVec 3
  | .ok _ => 0
  | .err e => e.kind.code

/-- `RSP.epos`: 0 when the status is OK, else the position the error reports (30_encoding.md R62). -/
def Response.epos : Response → BitVec 5
  | .ok _ => 0
  | .err e => e.epos

end Sys2Proof.Machine
end

