-- ==== Sys2Proof/Machine/Operands.lean ====
section
/-! DEFINITION. The operand forms of requests and the result forms of responses (30_encoding.md R62, R63, R66, R71,
R76): field shapes, strings, and the 416-bit picture of a response. -/

namespace Sys2Proof

/-- FW, the field width of a shape (30_encoding.md R66). -/
def Shape.fieldBits : Shape → Nat
  | .T => Config.tsBits
  | .R => Config.randBits

/-- W, the characters of a shape (30_encoding.md R66). -/
def Shape.chars : Shape → Nat
  | .T => Config.tsChars
  | .R => Config.randChars

/-- How a host presents a string of any length: a longer string than 255 has `slen` = 255, and only 26 cells exist
(30_encoding.md R63). -/
def StrOperand.ofString (s : List Byte) : StrOperand :=
  { slen := BitVec.ofNat 8 (min s.length 255), cells := s.take Config.strCells }

namespace Machine

/-- `s[i:j)`, the substring of positions i up to but not including j (00_scope.md R10). -/
def substr (s : List Byte) (i j : Nat) : List Byte := (s.drop i).take (j - i)

/-! ### The fields of a response and its port picture (30_encoding.md R62, R71) -/

/-- The value and string results of a response; an error carries none, so all of them are 0 (30_encoding.md R71). -/
def Response.results : Response → Result
  | .ok res => res
  | .err _ => {}

/-- The fields of RSP put together, each at its lowest bit (30_encoding.md R62). -/
def packRsp (status : BitVec 3) (epos : BitVec 5) (res : Result) : RspWord :=
  status.setWidth 416 ||| (epos.setWidth 416 <<< 3) ||| ((BitVec.ofNat 8 res.r.length).setWidth 416 <<< 8) |||
    (res.ra.setWidth 416 <<< 16) ||| (res.rb.setWidth 416 <<< 80) ||| (res.rc.setWidth 416 <<< 144) |||
    ((packCells res.r).setWidth 416 <<< 208)

/-- The 416 bits of RSP that carry a response (30_encoding.md R62, R71). -/
def Response.toRsp (r : Response) : RspWord := packRsp r.status r.epos r.results

/-- `status` is RSP[2:0]. -/
def Rsp.status (w : RspWord) : BitVec 3 := w.extractLsb' 0 3

/-- `epos` is RSP[7:3]. -/
def Rsp.epos (w : RspWord) : BitVec 5 := w.extractLsb' 3 5

/-- `rlen` is RSP[15:8]. -/
def Rsp.rlen (w : RspWord) : BitVec 8 := w.extractLsb' 8 8

/-- `ra` is RSP[79:16]. -/
def Rsp.ra (w : RspWord) : Word := w.extractLsb' 16 64

/-- `rb` is RSP[143:80]. -/
def Rsp.rb (w : RspWord) : Word := w.extractLsb' 80 64

/-- `rc` is RSP[207:144]. -/
def Rsp.rc (w : RspWord) : Word := w.extractLsb' 144 64

/-- `r[i]` is RSP[215+8i : 208+8i]. -/
def Rsp.cell (w : RspWord) (i : Nat) : Byte := w.extractLsb' (208 + 8 * i) 8

end Machine

end Sys2Proof
end

