-- ==== Sys2Proof/Machine/Tables.lean ====
section
/-! DEFINITION. The constant tables NUM and CROCK and their inverse look-ups (10_state.md R21 to R24). -/

namespace Sys2Proof.Machine

/-- The two parallel alphabets (10_state.md R22, R23). -/
inductive Alphabet where
  | num
  | crock
  deriving DecidableEq, Repr

/-- The codes of table NUM, `0` to `9` and `a` to `v`, index 0 first (10_state.md R22, R23). -/
def numTable : List Byte :=
  [0x30, 0x31, 0x32, 0x33, 0x34, 0x35, 0x36, 0x37] ++
  [0x38, 0x39, 0x61, 0x62, 0x63, 0x64, 0x65, 0x66] ++
  [0x67, 0x68, 0x69, 0x6A, 0x6B, 0x6C, 0x6D, 0x6E] ++
  [0x6F, 0x70, 0x71, 0x72, 0x73, 0x74, 0x75, 0x76]

/-- The codes of table CROCK, `0` to `9` and the upper-case letters other than I, L, O, U, index 0 first
(10_state.md R23). -/
def crockTable : List Byte :=
  [0x30, 0x31, 0x32, 0x33, 0x34, 0x35, 0x36, 0x37] ++
  [0x38, 0x39, 0x41, 0x42, 0x43, 0x44, 0x45, 0x46] ++
  [0x47, 0x48, 0x4A, 0x4B, 0x4D, 0x4E, 0x50, 0x51] ++
  [0x52, 0x53, 0x54, 0x56, 0x57, 0x58, 0x59, 0x5A]

/-- The table of an alphabet. -/
def Alphabet.table : Alphabet → List Byte
  | .num => numTable
  | .crock => crockTable

/-- `NUM[i]` and `CROCK[i]`: the entry at a digit value (00_scope.md R11). Both tables have 32 entries, so the
default of the list read is never used. -/
def Alphabet.symbol (A : Alphabet) (d : Digit) : Byte := A.table.getD d.toNat 0

/-- `NUMIDX(c)` and `CROCKIDX(c)`: the index of a character, or none (10_state.md R24). -/
def Alphabet.index (A : Alphabet) (c : Byte) : Option Digit :=
  (A.table.findIdx? (· == c)).map (BitVec.ofNat 5)

/-- `ISNUM(c)` and `ISCROCK(c)` (10_state.md R24). -/
def Alphabet.isSymbol (A : Alphabet) (c : Byte) : Bool := (A.index c).isSome

end Sys2Proof.Machine
end

