-- ==== Sys2Proof/Machine/Ops.lean ====
section
/-! DEFINITION. The named operations every unit is written with: raising an error, ending an operation with its
response, the checks on characters, and what the ports do. There is no memory and no register to read or write
(20_memory.md R40, 10_state.md R25). -/

namespace Sys2Proof.Machine

/-! ### Errors (60_exceptions.md section 3) -/

/-- What an operation comes to: its results, or the error that ended it (00_scope.md R11). -/
abbrev Op (α : Type) := Except OpError α

/-- `raise <Error>(p)`: ends the operation at once (00_scope.md R11, 60_exceptions.md R186). This is the one place an
error is taken. Nothing is saved, no mode changes and control goes nowhere, and there is no return operation, since
there is nothing to restore (R187). -/
def raise {α : Type} (kind : ErrorKind) (pos : Nat) : Op α :=
  .error { kind := kind, epos := BitVec.ofNat 5 pos }

/-- The response an operation ends with: its results with status OK, or the error and nothing else
(60_exceptions.md R186, 30_encoding.md R71). -/
def finish : Op Result → Response
  | .ok res => .ok res
  | .error e => .err e

/-- The response to a request that selects no operation (30_encoding.md R68, 60_exceptions.md R184). -/
def illegalResponse : Response := finish (raise .illegalOp 0)

/-! ### Characters (10_state.md R24, 60_exceptions.md R182) -/

/-- The lowest position whose character is not a symbol of the alphabet; the length when there is none. -/
def firstBad (A : Alphabet) (s : List Byte) : Nat := s.findIdx fun c => !A.isSymbol c

/-- `for i ascending: if not member then raise InvalidCharacter(i)` (60_exceptions.md R182). -/
def checkMember (A : Alphabet) (s : List Byte) : Op Unit :=
  if s.all A.isSymbol then .ok () else raise .invalidCharacter (firstBad A s)

/-- A primitive that has no value on a string with a foreign character, used in an operation: the missing value is
the error InvalidCharacter at the lowest such position (42_transliterator.md R130, decision D14;
DEDUCED, log 12). -/
def orInvalidCharacter {α : Type} (A : Alphabet) (s : List Byte) : Option α → Op α
  | some x => .ok x
  | none => raise .invalidCharacter (firstBad A s)

/-! ### The ports (70_reset_and_hazards.md R200, R202) -/

/-- The accepted request's response joins those not delivered yet, behind the earlier ones (20_memory.md R49). -/
def State.answer (s : State) (r : Response) : State := { s with pending := s.pending ++ [r] }

/-- Every operation ends so: its response is produced and nothing else happens (00_scope.md R12, 60_exceptions.md
R186). -/
def complete (op : Op Result) (s : State) : Host.Outcome State Fault Refusal := .next (s.answer (finish op))

/-- The host is ready for a response: the oldest one is delivered; with none pending `rsp_valid` is 0 and nothing is
delivered (70_reset_and_hazards.md R202). -/
def State.deliver (s : State) : State :=
  match s.pending with
  | [] => s
  | r :: rest => { s with pending := rest, delivered := s.delivered ++ [r] }

/-- Reset gives up every transaction in flight and leaves no response pending; it clears nothing else
(70_reset_and_hazards.md R200; DEDUCED, log 4). -/
def State.resetBlock (s : State) : State := { s with pending := [] }

/-- With nothing presented at the ports the block waits (60_exceptions.md R195, R196;
DESIGN CHOICE, log 17). -/
def State.idle (s : State) : State := s

/-- The host's next action is to present the request `q`; what it would do after that is unchanged. -/
def State.present (s : State) (q : ReqWord) : State := { s with events := .request q :: s.events }

/-- `req_valid`: a request is presented (70_reset_and_hazards.md R202). -/
def State.reqValid (s : State) : Bool :=
  match s.events with
  | .request _ :: _ => true
  | _ => false

/-- The REQ port: the word presented, while `req_valid` is 1 (70_reset_and_hazards.md R202). -/
def State.reqPort (s : State) : Option ReqWord :=
  match s.events with
  | .request q :: _ => some q
  | _ => none

/-- `req_ready`: the model's block is ready in every state (DESIGN CHOICE, log 3). -/
def State.reqReady (_ : State) : Bool := true

/-- `rsp_valid`: a response is pending (70_reset_and_hazards.md R202). -/
def State.rspValid (s : State) : Bool := !s.pending.isEmpty

/-- The RSP port: the oldest pending response, while `rsp_valid` is 1; no value otherwise (70_reset_and_hazards.md
R202, R206; DEDUCED, log 4). -/
def State.rspPort (s : State) : Option RspWord := s.pending.head?.map Response.toRsp

/-- `rsp_ready`: the host takes a response (70_reset_and_hazards.md R202). -/
def State.rspReady (s : State) : Bool :=
  match s.events with
  | .take :: _ => true
  | _ => false

end Sys2Proof.Machine
end

