-- ==== Sys2Proof/Machine/RadixEngine.lean ====
section
/-! DEFINITION. Unit RCE, the fixed-width radix-conversion engine (41_radix_engine.md): TODIG and FROMDIG. -/

namespace Sys2Proof.Machine

/-! ### Primitives (41_radix_engine.md section 1) -/

/-- The radix-32 digits of a number, most significant first, without leading zero digits; the number 0 has one zero
digit (41_radix_engine.md R110, decision D15). `fuel` bounds the digits. -/
def b32Digits : Nat → Nat → List Digit
  | 0, _ => []
  | fuel + 1, v =>
    if v < 32 then [BitVec.ofNat 5 v] else b32Digits fuel (v / 32) ++ [BitVec.ofNat 5 (v % 32)]

/-- `B32STR(v)` (41_radix_engine.md R110). Thirteen digits hold every number below 2^65, more than the 2^64 the rule
asks for (DESIGN CHOICE, log 9). -/
def b32Str (v : Nat) : List Byte := (b32Digits 13 v).map Alphabet.num.symbol

/-- `PADL(d, W)` (41_radix_engine.md R111). -/
def padL (d : List Byte) (w : Nat) : List Byte :=
  List.replicate (w - d.length) (Alphabet.num.symbol 0) ++ d

/-- The number a digit sequence spells, most significant first, one digit at a time (41_radix_engine.md R116). -/
def digitsValue (ds : List Digit) : Nat := ds.foldl (fun acc d => acc * 32 + d.toNat) 0

/-- `B32PARSE(d)`, with no value when a character is not in NUM (41_radix_engine.md R112). -/
def b32Parse (d : List Byte) : Option Nat := (d.mapM Alphabet.num.index).map digitsValue

/-! ### Operations (41_radix_engine.md section 2) -/

/-- TODIG as an operation (41_radix_engine.md R113). -/
def opToDig (shape : Shape) (value : Word) : Op Result :=
  if 2 ^ shape.fieldBits ≤ value.toNat then raise .fieldOverflow 0
  else .ok { r := padL (b32Str value.toNat) shape.chars }

/-- FROMDIG as an operation: length, characters, parse, field width, in this order (41_radix_engine.md R114). -/
def opFromDig (shape : Shape) (digits : StrOperand) : Op Result := do
  if digits.slen.toNat ≠ shape.chars then raise .invalidLength 0
  checkMember .num digits.cells
  let v ← orInvalidCharacter .num digits.cells (b32Parse digits.cells)
  if 2 ^ shape.fieldBits ≤ v then raise .fieldOverflow 0
  return { ra := BitVec.ofNat 64 v }

/-- TODIG (41_radix_engine.md R113). -/
def execToDig (shape : Shape) (value : Word) (s : State) : Host.Outcome State Fault Refusal :=
  complete (opToDig shape value) s

/-- FROMDIG (41_radix_engine.md R114). -/
def execFromDig (shape : Shape) (digits : StrOperand) (s : State) : Host.Outcome State Fault Refusal :=
  complete (opFromDig shape digits) s

end Sys2Proof.Machine
end

