-- ==== Sys2Proof/Machine/Splitter.lean ====
section
/-! DEFINITION. Unit SPL, the 128-bit integer splitter and joiner (40_splitter.md): SPLIT and JOIN. -/

namespace Sys2Proof.Machine

/-- The three numeric fields of an identifier, V = {time, random1, random2} (40_splitter.md R90; 10_state.md R26). -/
structure Fields where
  time    : BitVec 48
  random1 : BitVec 40
  random2 : BitVec 40
  deriving DecidableEq, Repr

/-- The split step (40_splitter.md R91, R94): logical shifts and masks on 64 bits. -/
def splitFields (high low : Word) : Fields :=
  { time := (high >>> 16).setWidth 48
    random1 := (((high &&& 0xFFFF) <<< 24) ||| (low >>> 40)).setWidth 40
    random2 := (low &&& 0xFFFFFFFFFF).setWidth 40 }

/-- The `high` of the reassembly (40_splitter.md R92). -/
def joinHigh (time random1 : Word) : Word := (time <<< 16) ||| (random1 >>> 24)

/-- The `low` of the reassembly; the shift discards the bits that pass bit 63 (40_splitter.md R92). -/
def joinLow (random1 random2 : Word) : Word := (random1 <<< 40) ||| (random2 &&& 0xFFFFFFFFFF)

/-- SPLIT as an operation: it never raises (40_splitter.md R91). -/
def opSplit (high low : Word) : Op Result :=
  let f := splitFields high low
  .ok { ra := f.time.setWidth 64, rb := f.random1.setWidth 64, rc := f.random2.setWidth 64 }

/-- JOIN as an operation, its three range checks in order (40_splitter.md R92). -/
def opJoin (time random1 random2 : Word) : Op Result :=
  if 2 ^ Config.tsBits ≤ time.toNat then raise .fieldOverflow 0
  else if 2 ^ Config.randBits ≤ random1.toNat then raise .fieldOverflow 1
  else if 2 ^ Config.randBits ≤ random2.toNat then raise .fieldOverflow 2
  else .ok { ra := joinHigh time random1, rb := joinLow random1 random2 }

/-- SPLIT (40_splitter.md R91). -/
def execSplit (high low : Word) (s : State) : Host.Outcome State Fault Refusal :=
  complete (opSplit high low) s

/-- JOIN (40_splitter.md R92). -/
def execJoin (time random1 random2 : Word) (s : State) : Host.Outcome State Fault Refusal :=
  complete (opJoin time random1 random2) s

end Sys2Proof.Machine
end

