-- ==== Sys2Proof/Machine/Transliterator.lean ====
section
/-! DEFINITION. Unit XLT, the Base32-to-Crockford transliterator (42_transliterator.md): XLITF and XLITR. -/

namespace Sys2Proof.Machine

/-- `XLIT(s, A1, A2)`: each character is replaced by the symbol of A2 at its index in A1; no value when a character
is not in A1 (42_transliterator.md R130). -/
def xlit (s : List Byte) (A1 A2 : Alphabet) : Option (List Byte) :=
  s.mapM fun c => (A1.index c).map A2.symbol

/-- A transliteration as an operation step: the character check and then the look-ups (42_transliterator.md R131,
R132). -/
def opXlit (s : List Byte) (A1 A2 : Alphabet) : Op (List Byte) := do
  checkMember A1 s
  orInvalidCharacter A1 s (xlit s A1 A2)

/-- XLITF as an operation: NUM to CROCK (42_transliterator.md R131). -/
def opXlitF (str : StrOperand) : Op Result := do
  if Config.strCells < str.slen.toNat then raise .invalidLength 0
  let t ← opXlit str.cells .num .crock
  return { r := t }

/-- XLITR as an operation: CROCK to NUM (42_transliterator.md R132). -/
def opXlitR (str : StrOperand) : Op Result := do
  if Config.strCells < str.slen.toNat then raise .invalidLength 0
  let t ← opXlit str.cells .crock .num
  return { r := t }

/-- XLITF (42_transliterator.md R131). -/
def execXlitF (str : StrOperand) (s : State) : Host.Outcome State Fault Refusal :=
  complete (opXlitF str) s

/-- XLITR (42_transliterator.md R132). -/
def execXlitR (str : StrOperand) (s : State) : Host.Outcome State Fault Refusal :=
  complete (opXlitR str) s

end Sys2Proof.Machine
end

