-- ==== Sys2Proof/Machine/Codec.lean ====
section
/-! DEFINITION. The whole codec, the fixed wiring of the three units (43_codec.md): ENCODE and DECODE. -/

namespace Sys2Proof.Machine

/-- ENCODE as an operation: split, convert each field, transliterate each field, concatenate (43_codec.md R150). -/
def opEncode (high low : Word) : Op Result := do
  let f := splitFields high low
  let tstr ← opXlit (padL (b32Str f.time.toNat) Config.tsChars) .num .crock
  let r1str ← opXlit (padL (b32Str f.random1.toNat) Config.randChars) .num .crock
  let r2str ← opXlit (padL (b32Str f.random2.toNat) Config.randChars) .num .crock
  return { r := tstr ++ r1str ++ r2str }

/-- One field of DECODE: transliterate the substring and parse it (43_codec.md R152). -/
def decodeField (str : List Byte) : Op Nat := do
  let n ← opXlit str .crock .num
  orInvalidCharacter .num n (b32Parse n)

/-- DECODE as an operation: length, alphabet, cut, transliterate, parse, field width, join (43_codec.md R152). -/
def opDecode (text : StrOperand) : Op Result := do
  if text.slen.toNat ≠ Config.textLen then raise .invalidLength 0
  checkMember .crock text.cells
  let time50 ← decodeField (substr text.cells 0 10)
  let random1 ← decodeField (substr text.cells 10 18)
  let random2 ← decodeField (substr text.cells 18 26)
  if 2 ^ Config.tsBits ≤ time50 then raise .fieldOverflow 0
  let t := BitVec.ofNat 64 time50
  let r1 := BitVec.ofNat 64 random1
  let r2 := BitVec.ofNat 64 random2
  return { ra := joinHigh t r1, rb := joinLow r1 r2 }

/-- ENCODE (43_codec.md R150). -/
def execEncode (high low : Word) (s : State) : Host.Outcome State Fault Refusal :=
  complete (opEncode high low) s

/-- DECODE (43_codec.md R152). -/
def execDecode (text : StrOperand) (s : State) : Host.Outcome State Fault Refusal :=
  complete (opDecode text) s

end Sys2Proof.Machine
end

