-- ==== Sys2Proof/Machine/Dispatch.lean ====
section
/-! DEFINITION. The one match that sends an instruction to its meaning. -/

namespace Sys2Proof.Machine

def exec (i : Instr) (s : State) : Host.Outcome State Fault Refusal :=
  match i with
  -- the whole codec (43_codec.md)
  | .encode high low => Sys2Proof.Machine.execEncode high low s
  | .decode text => Sys2Proof.Machine.execDecode text s
  -- unit SPL (40_splitter.md)
  | .split high low => Sys2Proof.Machine.execSplit high low s
  | .join time random1 random2 => Sys2Proof.Machine.execJoin time random1 random2 s
  -- unit RCE (41_radix_engine.md)
  | .toDig shape value => Sys2Proof.Machine.execToDig shape value s
  | .fromDig shape digits => Sys2Proof.Machine.execFromDig shape digits s
  -- unit XLT (42_transliterator.md)
  | .xlitF str => Sys2Proof.Machine.execXlitF str s
  | .xlitR str => Sys2Proof.Machine.execXlitR str s

end Sys2Proof.Machine
end

