-- ==== Sys2Proof/Machine/Transaction.lean ====
section
/-! DEFINITION. One transaction, from an accepted request to its response, and what each host action does
(30_encoding.md R60, R68; 70_reset_and_hazards.md R200, R202). -/

namespace Sys2Proof.Machine

/-- An accepted request: the operation it selects runs; one that selects none is answered with IllegalOp and nothing
else is done (30_encoding.md R68). -/
def acceptRequest (q : ReqWord) (s : State) : Host.Outcome State Fault Refusal :=
  match decodeReq q with
  | .ok i => exec i s
  | .error _ => .next (s.answer illegalResponse)

/-- What one host action does to the block. -/
def handleEvent (e : HostEvent) (s : State) : Host.Outcome State Fault Refusal :=
  match e with
  | .request q => acceptRequest q s
  | .take => .next s.deliver
  | .reset => .next s.resetBlock

end Sys2Proof.Machine
end

