-- ==== Sys2Proof/Machine/Step.lean ====
section
/-! DEFINITION. The step of one instance: it takes the host's next action and handles it. -/

namespace Sys2Proof.Machine

/-- One step: the oldest host action is taken up, a request as one atomic transaction (30_encoding.md R60); with none
the block waits. -/
def step (s : State) : Host.Outcome State Fault Refusal :=
  match s.events with
  | [] => .next s.idle
  | e :: rest => handleEvent e { s with events := rest }

/-- The request whose low `nbits` bits are those of `w` and whose other bits are 0 is the next the host presents, so
that the next step accepts it (DESIGN CHOICE, log 6, log 15). -/
def State.withFetchWord (s : State) (nbits w : Nat) : State := s.present (BitVec.ofNat 416 (w % 2 ^ nbits))

end Sys2Proof.Machine
end

