-- ==== Sys2Proof/Machine/Assembly.lean ====
section
/-! DEFINITION. How the spec writes a transaction, one line of text (30_encoding.md R73). -/

namespace Sys2Proof.Machine

/-- The character of an 8-bit code, any of the 256 as it stands (DESIGN CHOICE, log 18). -/
def charOf (c : Byte) : Char := Char.ofNat c.toNat

/-- Digits of a number in a base up to 16, upper case, without leading zeros; `fuel` bounds them (DESIGN CHOICE,
log 14). -/
def baseDigits (base : Nat) : Nat → Nat → List Char
  | 0, _ => []
  | fuel + 1, n =>
    let d := n % base
    let ch := Char.ofNat (if d < 10 then 48 + d else 55 + d)
    if n < base then [ch] else baseDigits base fuel (n / base) ++ [ch]

/-- A value, hexadecimal with the prefix `0x` (30_encoding.md R73). -/
def showValue (v : Word) : List Char := '0' :: 'x' :: baseDigits 16 16 v.toNat

/-- The double quote of a string. -/
def quoteChar : Char := Char.ofNat 34

/-- A string in double quotes, or its count of characters when the cells cannot show it (30_encoding.md R73). A cell
that holds a double quote, a control code or a code of 0x80 or above is written as the raw character of its code, with
no escape (DESIGN CHOICE, log 18). -/
def showString (slen : Nat) (cells : List Byte) : List Char :=
  if Config.strCells < slen then '<' :: baseDigits 10 3 slen ++ [' ', 'c', 'h', 'a', 'r', 's', '>']
  else quoteChar :: cells.map charOf ++ [quoteChar]

/-- Items with a comma and a space between them. -/
def commaSep : List (List Char) → List Char
  | [] => []
  | [x] => x
  | x :: y :: rest => x ++ [',', ' '] ++ commaSep (y :: rest)

/-- The suffix of a shape (30_encoding.md R73). -/
def showShape : Shape → List Char
  | .T => ['.', 'T']
  | .R => ['.', 'R']

/-- The mnemonic with its shape suffix (30_encoding.md R65, R73). -/
def showMnemonic : Instr → List Char
  | .encode _ _ => ['E', 'N', 'C', 'O', 'D', 'E']
  | .decode _ => ['D', 'E', 'C', 'O', 'D', 'E']
  | .split _ _ => ['S', 'P', 'L', 'I', 'T']
  | .join _ _ _ => ['J', 'O', 'I', 'N']
  | .toDig shape _ => ['T', 'O', 'D', 'I', 'G'] ++ showShape shape
  | .fromDig shape _ => ['F', 'R', 'O', 'M', 'D', 'I', 'G'] ++ showShape shape
  | .xlitF _ => ['X', 'L', 'I', 'T', 'F']
  | .xlitR _ => ['X', 'L', 'I', 'T', 'R']

/-- The operands in the order `a`, `b`, `c`, or the string operand (30_encoding.md R73). -/
def showOperands : Instr → List Char
  | .encode high low => commaSep [showValue high, showValue low]
  | .decode text => showString text.slen.toNat text.cells
  | .split high low => commaSep [showValue high, showValue low]
  | .join time random1 random2 => commaSep [showValue time, showValue random1, showValue random2]
  | .toDig _ value => showValue value
  | .fromDig _ digits => showString digits.slen.toNat digits.cells
  | .xlitF str => showString str.slen.toNat str.cells
  | .xlitR str => showString str.slen.toNat str.cells

/-- The results of an operation in the order `ra`, `rb`, `rc`, or the string result (30_encoding.md R67, R73). -/
def showResult (i : Instr) (res : Result) : List Char :=
  match i with
  | .encode _ _ => showString res.r.length res.r
  | .decode _ => commaSep [showValue res.ra, showValue res.rb]
  | .split _ _ => commaSep [showValue res.ra, showValue res.rb, showValue res.rc]
  | .join _ _ _ => commaSep [showValue res.ra, showValue res.rb]
  | .toDig _ _ => showString res.r.length res.r
  | .fromDig _ _ => showValue res.ra
  | .xlitF _ => showString res.r.length res.r
  | .xlitR _ => showString res.r.length res.r

/-- The name of an error kind (60_exceptions.md R180). -/
def showKind : ErrorKind → List Char
  | .invalidLength => ['I', 'n', 'v', 'a', 'l', 'i', 'd', 'L', 'e', 'n', 'g', 't', 'h']
  | .invalidCharacter => ['I', 'n', 'v', 'a', 'l', 'i', 'd', 'C', 'h', 'a', 'r', 'a', 'c', 't', 'e', 'r']
  | .fieldOverflow => ['F', 'i', 'e', 'l', 'd', 'O', 'v', 'e', 'r', 'f', 'l', 'o', 'w']
  | .illegalOp => ['I', 'l', 'l', 'e', 'g', 'a', 'l', 'O', 'p']

/-- A response: the results, or `!` and the kind with `epos` in parentheses (30_encoding.md R73). -/
def showResponse (i : Instr) : Response → List Char
  | .ok res => showResult i res
  | .err e => '!' :: showKind e.kind ++ ['('] ++ baseDigits 10 2 e.epos.toNat ++ [')']

/-- One transaction is one line (30_encoding.md R73). -/
def showTransaction (i : Instr) (r : Response) : List Char :=
  showMnemonic i ++ [' '] ++ showOperands i ++ [' ', '-', '>', ' '] ++ showResponse i r

end Sys2Proof.Machine
end

