-- ==== Sys2Proof/Machine/ClosedForms.lean ====
section
/-! DEFINITION. The closed forms a datapath may use in place of the staged operations (41_radix_engine.md R115;
42_transliterator.md R137, R138; 43_codec.md R151, R153). The staged form is the definition; these are stated to be
equal to it. -/

namespace Sys2Proof.Machine

/-- Digit j of TODIG, the j-th five-bit group counted from the most significant end (41_radix_engine.md R115). -/
def slicedDigit (shape : Shape) (v : Word) (j : Nat) : Byte :=
  Alphabet.num.symbol (((v >>> (5 * (shape.chars - 1 - j))) &&& 0x1F).setWidth 5)

/-- TODIG by slices (41_radix_engine.md R115). -/
def slicedDigits (shape : Shape) (v : Word) : List Byte :=
  (List.range shape.chars).map (slicedDigit shape v)

/-- X, the identifier with two zero bits put on top (43_codec.md R151). -/
def extendedId (high low : Word) : BitVec 130 := (0 : BitVec 2) ++ (high ++ low)

/-- Group i of X, X[129-5i : 125-5i] (43_codec.md R151). -/
def idGroup (high low : Word) (i : Nat) : Digit := (extendedId high low).extractLsb' (125 - 5 * i) 5

/-- ENCODE by a fused datapath that indexes CROCK with each five-bit group (43_codec.md R151,
42_transliterator.md R138). -/
def fusedText (high low : Word) : List Byte :=
  (List.range Config.textLen).map fun i => Alphabet.crock.symbol (idGroup high low i)

/-- The concatenation of 26 digit values, g_0 in the most significant place (43_codec.md R153). -/
def concatDigits (ds : List Digit) : BitVec 130 :=
  ds.foldl (fun acc d => (acc <<< 5) ||| d.setWidth 130) 0

/-- DECODE by a fused datapath that takes CROCKIDX of each character as a five-bit group (43_codec.md R153,
42_transliterator.md R138). -/
def fusedDecode (text : StrOperand) : Op Result :=
  if text.slen.toNat ≠ Config.textLen then raise .invalidLength 0
  else match text.cells.mapM Alphabet.crock.index with
    | none => raise .invalidCharacter (firstBad .crock text.cells)
    | some ds =>
      let x := concatDigits ds
      if x.extractLsb' 128 2 ≠ 0 then raise .fieldOverflow 0
      else .ok { ra := x.extractLsb' 64 64, rb := x.extractLsb' 0 64 }

/-- XLITF as a function on 8-bit codes (42_transliterator.md R137). -/
def xlitCode (c : Byte) : Option Byte :=
  if 0x30 ≤ c.toNat ∧ c.toNat ≤ 0x39 then some c
  else if 0x61 ≤ c.toNat ∧ c.toNat ≤ 0x68 then some (c - 0x20)
  else if 0x69 ≤ c.toNat ∧ c.toNat ≤ 0x6A then some (c - 0x1F)
  else if 0x6B ≤ c.toNat ∧ c.toNat ≤ 0x6C then some (c - 0x1E)
  else if 0x6D ≤ c.toNat ∧ c.toNat ≤ 0x71 then some (c - 0x1D)
  else if 0x72 ≤ c.toNat ∧ c.toNat ≤ 0x76 then some (c - 0x1C)
  else none

end Sys2Proof.Machine
end

