-- ==== Sys2Proof/Machine/Pseudo.lean ====
section
/-! DEFINITION. The document's public names and what each expands to (30_encoding.md R74; 40_splitter.md R95, R96). -/

namespace Sys2Proof.Machine

/-- An identifier is the pair of its halves and nothing else (10_state.md R34, 40_splitter.md R97). -/
structure Identifier where
  high : Word
  low  : Word
  deriving DecidableEq, Repr

/-- `fromHalves(high, low)`, which always succeeds (40_splitter.md R95). -/
def fromHalves (high low : Word) : Identifier := { high := high, low := low }

/-- `toHalves(Identifier)`, which always succeeds (40_splitter.md R96). -/
def toHalves (id : Identifier) : Word × Word := (id.high, id.low)

/-- The document's names for uses of the block (30_encoding.md R74). -/
inductive Pseudo where
  | format (id : Identifier)
  | parse (text : List Byte)
  | fromHalves (high low : Word)
  | toHalves (id : Identifier)
  | encode (high low : Word)
  | decode (text : List Byte)
  deriving DecidableEq, Repr

/-- The transaction a name expands to; `fromHalves` and `toHalves` expand to none (30_encoding.md R74). -/
def Pseudo.expand : Pseudo → Option Instr
  | .format id => some (.encode id.high id.low)
  | .parse text => some (.decode (StrOperand.ofString text))
  | .fromHalves _ _ => none
  | .toHalves _ => none
  | .encode high low => some (.encode high low)
  | .decode text => some (.decode (StrOperand.ofString text))

end Sys2Proof.Machine
end

