-- ==== Sys2Proof/Machine/System.lean ====
section
/-! DEFINITION. Several instances side by side (60_exceptions.md R193; 20_memory.md R48), and the one timing rule,
which the step does not use (70_reset_and_hazards.md R204). -/

namespace Sys2Proof.Machine

/-- The instances of a system; they share nothing (60_exceptions.md R193). -/
abbrev System := List State

/-- A system of N_INSTANCES copies right after reset (00_scope.md R8, 70_reset_and_hazards.md R200). -/
def System.reset : System := List.replicate Config.nInstances State.reset

/-- Instance `k` takes one step and the others stand still; a system has no other way to move (DESIGN CHOICE,
log 11). -/
def stepInstance (k : Nat) (sys : System) : System :=
  match sys[k]? with
  | none => sys
  | some s =>
    match step s with
    | .next t => sys.set k t
    | .fault _ => sys
    | .refused _ => sys

/-- The instances step in the order of a schedule. -/
def runSchedule : List Nat → System → System
  | [], sys => sys
  | k :: ks, sys => runSchedule ks (stepInstance k sys)

/-- The first cycle in which the response to a request accepted in cycle `acceptedAt` is valid: the same distance for
every operation and every operand (70_reset_and_hazards.md R204). -/
def firstValidCycle (_request : ReqWord) (acceptedAt : Nat) : Nat := acceptedAt + Config.latency

end Sys2Proof.Machine
end

