-- ==== Sys2Proof/Safety.lean ====
section
/-! DEFINITION. The terms claims are stated in: what a string spells, which strings are accepted, which responses are
legal, the causes of an error, and what a run answers. -/

namespace Sys2Proof.Machine

/-! ### Strings -/

/-- Every character of the string is a symbol of the alphabet (10_state.md R24). -/
def Over (A : Alphabet) (s : List Byte) : Prop := ∀ c ∈ s, A.isSymbol c = true

/-- Position `p` is the lowest whose character is not a symbol of the alphabet (60_exceptions.md R182). -/
def LowestForeign (A : Alphabet) (s : List Byte) (p : Nat) : Prop :=
  p < s.length ∧ A.isSymbol (s.getD p 0) = false ∧ ∀ k < p, A.isSymbol (s.getD k 0) = true

/-- The value of a digit string read with an alphabet's index: the sum of IDX(f[j]) * 32^(W-1-j) over its positions
(20_memory.md R42). A character outside the alphabet counts 0; claims use it on strings over the alphabet. -/
def fieldValue (A : Alphabet) (s : List Byte) : Nat :=
  ((List.range s.length).map fun j => ((A.index (s.getD j 0)).getD 0).toNat * 32 ^ (s.length - 1 - j)).sum

/-- `s` comes before `t` as an ordinary string: position by position from position 0, by character code
(43_codec.md R159). -/
def TextBefore : List Byte → List Byte → Prop
  | [], [] => False
  | [], _ :: _ => True
  | _ :: _, [] => False
  | a :: s, b :: t => a.toNat < b.toNat ∨ a = b ∧ TextBefore s t

/-- The accepted strings: 26 characters, all of them in CROCK, the first one of `0` to `7` (43_codec.md R155). -/
def Accepted (s : List Byte) : Prop :=
  s.length = 26 ∧ Over .crock s ∧ 0x30 ≤ (s.getD 0 0).toNat ∧ (s.getD 0 0).toNat ≤ 0x37

/-! ### Responses -/

/-- A response the block can give: a string result fits the cells and is spelled in one of the alphabets, and an
error reports a position its kind allows (30_encoding.md R62, 60_exceptions.md R181 to R184). -/
def Response.Legal : Response → Prop
  | .ok res => res.r.length ≤ 26 ∧ (Over .num res.r ∨ Over .crock res.r)
  | .err e =>
    match e.kind with
    | .invalidLength => e.epos = 0
    | .invalidCharacter => e.epos.toNat ≤ 25
    | .fieldOverflow => e.epos.toNat ≤ 2
    | .illegalOp => e.epos = 0

/-- Every response that is pending or was delivered is a legal one. -/
def State.Legal (s : State) : Prop := ∀ r ∈ s.pending ++ s.delivered, r.Legal

/-- The status codes an operation can produce (60_exceptions.md R180). -/
def statusesOf : Instr → List (BitVec 3)
  | .encode _ _ => [0]
  | .decode _ => [0, 1, 2, 3]
  | .split _ _ => [0]
  | .join _ _ _ => [0, 3]
  | .toDig _ _ => [0, 3]
  | .fromDig _ _ => [0, 1, 2, 3]
  | .xlitF _ => [0, 1, 2]
  | .xlitR _ => [0, 1, 2]

/-! ### Causes of errors (60_exceptions.md section 1) -/

/-- The string operand does not have the length the operation needs (60_exceptions.md R181). -/
def LengthCause : Instr → Prop
  | .encode _ _ => False
  | .decode text => text.slen.toNat ≠ 26
  | .split _ _ => False
  | .join _ _ _ => False
  | .toDig _ _ => False
  | .fromDig .T digits => digits.slen.toNat ≠ 10
  | .fromDig .R digits => digits.slen.toNat ≠ 8
  | .xlitF str => 26 < str.slen.toNat
  | .xlitR str => 26 < str.slen.toNat

/-- Position `p` is the lowest with a character foreign to the alphabet the operation reads (60_exceptions.md R182). -/
def CharacterCause : Instr → Nat → Prop
  | .encode _ _, _ => False
  | .decode text, p => LowestForeign .crock text.cells p
  | .split _ _, _ => False
  | .join _ _ _, _ => False
  | .toDig _ _, _ => False
  | .fromDig _ digits, p => LowestForeign .num digits.cells p
  | .xlitF str, p => LowestForeign .num str.cells p
  | .xlitR str, p => LowestForeign .crock str.cells p

/-- A value does not fit its field, and `p` is what the error reports: for JOIN the first such operand, otherwise 0
(60_exceptions.md R183). -/
def OverflowCause : Instr → Nat → Prop
  | .encode _ _, _ => False
  | .decode text, p => p = 0 ∧ 2 ^ 48 ≤ fieldValue .crock (substr text.cells 0 10)
  | .split _ _, _ => False
  | .join t r1 r2, p =>
    p = 0 ∧ 2 ^ 48 ≤ t.toNat ∨
    p = 1 ∧ t.toNat < 2 ^ 48 ∧ 2 ^ 40 ≤ r1.toNat ∨
    p = 2 ∧ t.toNat < 2 ^ 48 ∧ r1.toNat < 2 ^ 40 ∧ 2 ^ 40 ≤ r2.toNat
  | .toDig .T v, p => p = 0 ∧ 2 ^ 48 ≤ v.toNat
  | .toDig .R v, p => p = 0 ∧ 2 ^ 40 ≤ v.toNat
  | .fromDig .T digits, p => p = 0 ∧ 2 ^ 48 ≤ fieldValue .num digits.cells
  | .fromDig .R digits, p => p = 0 ∧ 2 ^ 40 ≤ fieldValue .num digits.cells
  | .xlitF _, _ => False
  | .xlitR _, _ => False

/-! ### Requests -/

/-- The cells below `n` are the same in two requests. -/
def SameCells (n : Nat) (q q' : ReqWord) : Prop := ∀ i < n, Req.cell q i = Req.cell q' i

/-- Two requests agree on `op`, on `rsv` and on every field that the selected operation reads (30_encoding.md R67);
of the cells only those below `slen` that exist, and for FROMDIG those below W (R69). -/
def ReadsAgree (q q' : ReqWord) : Prop :=
  Req.op q = Req.op q' ∧ Req.rsv q = Req.rsv q' ∧
  match (Req.op q).toNat with
  | 1 => Req.a q = Req.a q' ∧ Req.b q = Req.b q'
  | 2 => Req.slen q = Req.slen q' ∧ SameCells (min (Req.slen q).toNat 26) q q'
  | 3 => Req.a q = Req.a q' ∧ Req.b q = Req.b q'
  | 4 => Req.a q = Req.a q' ∧ Req.b q = Req.b q' ∧ Req.c q = Req.c q'
  | 5 => Req.wsel q = Req.wsel q' ∧ Req.a q = Req.a q'
  | 6 => Req.wsel q = Req.wsel q' ∧ Req.slen q = Req.slen q' ∧
      SameCells (min (Req.slen q).toNat (Shape.ofWsel (Req.wsel q)).chars) q q'
  | 7 => Req.slen q = Req.slen q' ∧ SameCells (min (Req.slen q).toNat 26) q q'
  | 8 => Req.slen q = Req.slen q' ∧ SameCells (min (Req.slen q).toNat 26) q q'
  | _ => True

/-! ### Runs (70_reset_and_hazards.md R206) -/

/-- The response a request gets alone, from the block right after reset (20_memory.md R48). -/
def answerAlone (q : ReqWord) : Option Response :=
  match step (State.reset.present q) with
  | .next t => t.pending.head?
  | .fault _ => none
  | .refused _ => none

/-- The requests among the host's actions, in order. -/
def requestsOf : List HostEvent → List ReqWord
  | [] => []
  | .request q :: es => q :: requestsOf es
  | .take :: es => requestsOf es
  | .reset :: es => requestsOf es

/-- The host actions of a run: each request is presented and its response taken (70_reset_and_hazards.md R206). -/
def runOf : List ReqWord → List HostEvent
  | [] => []
  | q :: qs => .request q :: .take :: runOf qs

end Sys2Proof.Machine
end

