-- ==== Sys2Proof/Certificates/Slice0/Obligations.lean ====
section
/-! DEFINITION. The statements for the provers. -/

open Sys2Proof Sys2Proof.Machine

/-! ### Requests: encoding and decoding -/

/-- Nine words written out in 95_test_vectors.md section 3, at least one for each operation (P1 steps 1 and 2, P2 steps
1, 2, 3 and 4, P4 steps 3, 4 and 7), decode to the transactions that stand beside them. -/
def Obligations.PrintedRequestWordsDecode : Prop :=
  decodeReq 0x00000000000000000000000000000000000000000000000000000000000000000000FEDCBA98765432100123456789ABCDEF0001
    = .ok (.encode 0x0123456789ABCDEF 0xFEDCBA9876543210) ∧
  decodeReq 0x474743383556314B543551585A515153424432465032443431300000000000000000000000000000000000000000000000001A02
    = .ok (.decode { slen := 26, cells := [
        0x30, 0x31, 0x34, 0x44, 0x32, 0x50, 0x46, 0x32, 0x44, 0x42, 0x53, 0x51, 0x51,
        0x5A, 0x58, 0x51, 0x35, 0x54, 0x4B, 0x31, 0x56, 0x35, 0x38, 0x43, 0x47, 0x47] }) ∧
  decodeReq 0x00000000000000000000000000000000000000000000000000000000000000000000FEDCBA98765432100123456789ABCDEF0003
    = .ok (.split 0x0123456789ABCDEF 0xFEDCBA9876543210) ∧
  decodeReq 0x0000000000000000000000000000000000000000000000000000000000B99302BD5B000000D6764C61EF000001563E3AB5D30004
    = .ok (.join 0x01563E3AB5D3 0xD6764C61EF 0xB99302BD5B) ∧
  decodeReq 0x00000000000000000000000000000000000000000000000000000000000000000000000000000000000000000123456789AB0005
    = .ok (.toDig .T 0x0123456789AB) ∧
  decodeReq 0x000000000000000000000000000000000000000000000000000000000000000000000000000000000000000000CDEFFEDCBA0015
    = .ok (.toDig .R 0xCDEFFEDCBA) ∧
  decodeReq 0x00000000000000000000000000000000000066666F6F347270710000000000000000000000000000000000000000000000000816
    = .ok (.fromDig .R { slen := 8, cells := [0x71, 0x70, 0x72, 0x34, 0x6F, 0x6F, 0x66, 0x66] }) ∧
  decodeReq 0x00000000000000000000000000000000626432666D32643431300000000000000000000000000000000000000000000000000A07
    = .ok (.xlitF { slen := 10, cells := [0x30, 0x31, 0x34, 0x64, 0x32, 0x6D, 0x66, 0x32, 0x64, 0x62] }) ∧
  decodeReq 0x00000000000000000000000000000000000046465252345653540000000000000000000000000000000000000000000000000808
    = .ok (.xlitR { slen := 8, cells := [0x54, 0x53, 0x56, 0x34, 0x52, 0x52, 0x46, 0x46] })

/-- Every field of REQ stands at the bits 30_encoding.md R61 gives it, whatever the field values: the words the
encoder puts together, read at those bits, and the decoder's field reads, which read the same bits of any word. -/
def Obligations.RequestFieldsStandAtTheirBits : Prop :=
  (∀ (op : BitVec 4) (wsel : BitVec 1) (slen : BitVec 8) (a b c : Word) (cells : List Byte), cells.length ≤ 26 →
    let q := packReq op wsel slen a b c cells
    q.extractLsb' 0 4 = op ∧ q.extractLsb' 4 1 = wsel ∧ q.extractLsb' 5 3 = 0 ∧ q.extractLsb' 8 8 = slen ∧
    q.extractLsb' 16 64 = a ∧ q.extractLsb' 80 64 = b ∧ q.extractLsb' 144 64 = c ∧
    ∀ i < 26, q.extractLsb' (208 + 8 * i) 8 = cells.getD i 0) ∧
  (∀ q : ReqWord,
    Req.op q = q.extractLsb' 0 4 ∧ Req.wsel q = q.extractLsb' 4 1 ∧ Req.rsv q = q.extractLsb' 5 3 ∧
    Req.slen q = q.extractLsb' 8 8 ∧ Req.a q = q.extractLsb' 16 64 ∧ Req.b q = q.extractLsb' 80 64 ∧
    Req.c q = q.extractLsb' 144 64 ∧ ∀ i < 26, Req.cell q i = q.extractLsb' (208 + 8 * i) 8)

/-- No bit of a request is dropped: the decoder gives back every well-formed instruction from the encoder's word. -/
def Obligations.DecodeOfEncodeGivesBackTheInstruction : Prop :=
  ∀ i : Instr, i.wf = true → decodeReq (encodeReq i) = .ok i

/-- Whatever the decoder reads from any of the 2^416 words is well-formed: it carries the cells its length shows
(30_encoding.md R63). -/
def Obligations.DecodedInstructionsAreWellFormed : Prop :=
  ∀ (q : ReqWord) (i : Instr), decodeReq q = .ok i → i.wf = true

/-- The operation code map with the shape select: for a request whose `rsv` is 0, which operation each of the sixteen
`op` values selects, with which value operands and which shape; the reserved ones select none (30_encoding.md R65,
R66). -/
def Obligations.OperationCodesSelectTheirOperations : Prop :=
  ∀ q : ReqWord, q.extractLsb' 5 3 = 0 →
    let op := (q.extractLsb' 0 4).toNat
    let shape : Shape := if q.getLsbD 4 then .R else .T
    (op = 1 → decodeReq q = .ok (.encode (Req.a q) (Req.b q))) ∧
    (op = 2 → decodeReq q = .ok (.decode (Req.str q))) ∧
    (op = 3 → decodeReq q = .ok (.split (Req.a q) (Req.b q))) ∧
    (op = 4 → decodeReq q = .ok (.join (Req.a q) (Req.b q) (Req.c q))) ∧
    (op = 5 → decodeReq q = .ok (.toDig shape (Req.a q))) ∧
    (op = 6 → decodeReq q = .ok (.fromDig shape (Req.str q))) ∧
    (op = 7 → decodeReq q = .ok (.xlitF (Req.str q))) ∧
    (op = 8 → decodeReq q = .ok (.xlitR (Req.str q))) ∧
    (op = 0 ∨ 9 ≤ op → ∀ i, decodeReq q ≠ .ok i) ∧
    (Shape.fieldBits .T = 48 ∧ Shape.chars .T = 10 ∧ Shape.fieldBits .R = 40 ∧ Shape.chars .R = 8)

/-- 30_encoding.md R68 and 60_exceptions.md R184: a request with a reserved `op` or a nonzero `rsv` is answered with
IllegalOp, `epos` 0 and every other field 0, and nothing else is done; and every request of all 2^416 has a defined
response. -/
def Obligations.ReservedEncodingsAnswerIllegalOp : Prop :=
  (∀ (q : ReqWord) (s : State),
    (q.extractLsb' 0 4 = 0 ∨ 9 ≤ (q.extractLsb' 0 4).toNat ∨ q.extractLsb' 5 3 ≠ 0) →
    ∃ r : Response, step (s.present q) = .next (s.answer r) ∧ r = .err { kind := .illegalOp, epos := 0 } ∧
      r.status = 4 ∧ r.epos = 0 ∧ r.toRsp = 4) ∧
  (∀ (q : ReqWord) (s : State), ∃ r : Response, step (s.present q) = .next (s.answer r))

/-- 30_encoding.md R69: two requests that agree on `op`, on `rsv` and on the fields R67 says the operation reads get
the same response, whatever the other fields and the cells beyond `slen` (for FROMDIG, beyond W) hold. -/
def Obligations.UnreadRequestFieldsHaveNoEffect : Prop :=
  ∀ (q q' : ReqWord) (s : State), ReadsAgree q q' → step (s.present q) = step (s.present q')

/-! ### The step -/

/-- When the request at the head of the host's actions decodes to an instruction, the step is `exec` of that
instruction at the state without that action; when it decodes to none, the block answers IllegalOp. That the host's
actions are a list of the state is the model's choice (log 1). -/
def Obligations.StepRunsTheDecodedInstruction : Prop :=
  ∀ (s : State) (q : ReqWord) (rest : List HostEvent), s.events = .request q :: rest →
    (∀ i : Instr, decodeReq q = .ok i → step s = exec i { s with events := rest }) ∧
    (∀ e : DecodeReject, decodeReq q = .error e →
      step s = .next ({ s with events := rest }.answer (.err { kind := .illegalOp, epos := 0 })))

/-- The three steps that run no instruction, by the model's reading of 70_reset_and_hazards.md R200 and R202 (log 1,
log 4, log 17): a take delivers the oldest pending response, or nothing when `rsp_valid` is 0; a reset drops what is
pending; with no host action the block waits. -/
def Obligations.PortActionsWithoutARequest : Prop :=
  (∀ (rest : List HostEvent) (r : Response) (p d : List Response),
    step { events := .take :: rest, pending := r :: p, delivered := d } =
      .next { events := rest, pending := p, delivered := d ++ [r] }) ∧
  (∀ (rest : List HostEvent) (d : List Response),
    step { events := .take :: rest, pending := [], delivered := d } =
      .next { events := rest, pending := [], delivered := d }) ∧
  (∀ (rest : List HostEvent) (p d : List Response),
    step { events := .reset :: rest, pending := p, delivered := d } =
      .next { events := rest, pending := [], delivered := d }) ∧
  (∀ p d : List Response,
    step { events := [], pending := p, delivered := d } = .next { events := [], pending := p, delivered := d })

/-- 70_reset_and_hazards.md R200: right after reset no response is pending and the block is ready; a reset drops every
transaction in flight, and the next request is served as it is from the state right after reset. -/
def Obligations.ResetLeavesNoResponsePending : Prop :=
  State.reset.rspValid = false ∧ State.reset.rspPort = none ∧ State.reset.reqReady = true ∧
  ∀ (s : State) (rest : List HostEvent), s.events = .reset :: rest →
    ∃ t : State, step s = .next t ∧ t.rspValid = false ∧ t.reqReady = true ∧ t.delivered = s.delivered ∧
      t.events = rest ∧
      ∀ (q : ReqWord) (r : Response),
        step (State.reset.present q) = .next (State.reset.answer r) → step (t.present q) = .next (t.answer r)

/-- 70_reset_and_hazards.md R202, by the model's handshake (log 1, log 3): RSP is held from the moment `rsp_valid`
rises until delivery, through every action that is neither a take nor a reset, and a delivery hands over what the RSP
port shows. -/
def Obligations.ResponsePortIsHeldUntilDelivery : Prop :=
  ∀ s t : State, s.rspValid = true → step s = .next t →
    (s.rspReady = false → s.events.head? ≠ some .reset → t.rspPort = s.rspPort ∧ t.delivered = s.delivered) ∧
    (s.rspReady = true → ∃ r, s.rspPort = some r.toRsp ∧ t.delivered = s.delivered ++ [r] ∧ t.pending = s.pending.tail)

/-- 00_scope.md R12: every operation is a pure, total function of its request; the same request gets the same response
in every state, and only that response is added. -/
def Obligations.ResponseDependsOnTheRequestOnly : Prop :=
  ∀ q : ReqWord, ∃ r : Response, ∀ s : State, step (s.present q) = .next (s.answer r)

/-- The frame of all eight operations (encode, decode, split, join, toDig, fromDig, xlitF, xlitR), with every operand:
when `exec` gives a next state, the host's actions and the delivered responses are unchanged, and the pending
responses are the old ones, in order, with one more behind them. There is no register, flag, special register or
memory to change (10_state.md R25 to R32). -/
def Obligations.EveryOperationOnlyAppendsItsResponse : Prop :=
  ∀ (i : Instr) (s t : State), exec i s = .next t →
    t.events = s.events ∧ t.delivered = s.delivered ∧ ∃ r : Response, t.pending = s.pending ++ [r]

/-! ### Responses -/

/-- 30_encoding.md R62: every field of RSP stands at the bits the rule gives it, for a response whose string fits the
cells; `epos` is 0 when the status is OK, and the accessors read those bits. -/
def Obligations.ResponseFieldsStandAtTheirBits : Prop :=
  (∀ r : Response, r.results.r.length ≤ 26 →
    let w := r.toRsp
    w.extractLsb' 0 3 = r.status ∧ w.extractLsb' 3 5 = r.epos ∧
    (w.extractLsb' 8 8).toNat = r.results.r.length ∧
    w.extractLsb' 16 64 = r.results.ra ∧ w.extractLsb' 80 64 = r.results.rb ∧ w.extractLsb' 144 64 = r.results.rc ∧
    (∀ i < 26, w.extractLsb' (208 + 8 * i) 8 = r.results.r.getD i 0) ∧
    (r.status = 0 → r.epos = 0)) ∧
  (∀ w : RspWord,
    Rsp.status w = w.extractLsb' 0 3 ∧ Rsp.epos w = w.extractLsb' 3 5 ∧ Rsp.rlen w = w.extractLsb' 8 8 ∧
    Rsp.ra w = w.extractLsb' 16 64 ∧ Rsp.rb w = w.extractLsb' 80 64 ∧ Rsp.rc w = w.extractLsb' 144 64 ∧
    ∀ i < 26, Rsp.cell w i = w.extractLsb' (208 + 8 * i) 8)

/-- 60_exceptions.md R186 and 30_encoding.md R70: a response whose status is not OK carries only status and position,
every bit of RSP above them is 0, and the step that gave it changed nothing else. -/
def Obligations.ErrorsCarryOnlyStatusAndPosition : Prop :=
  ∀ (q : ReqWord) (s t : State), step (s.present q) = .next t →
    ∃ r : Response, t = { s with pending := s.pending ++ [r] } ∧
      (r.status ≠ 0 → ∃ (k : ErrorKind) (p : BitVec 5), r = .err { kind := k, epos := p } ∧ r.status = k.code ∧
        r.epos = p ∧ r.results = {} ∧ r.toRsp = (p ++ k.code).setWidth 416)

/-- 30_encoding.md R71: the fields an operation does not write are 0 in its response: the values and the string R67
does not list for the operation, `rlen` of an operation with no string result, the upper bits of a zero-extended
value, and the cells of RSP at and beyond `rlen`; every field but status and `epos` when the status is not OK. -/
def Obligations.UnwrittenResponseFieldsAreZero : Prop :=
  (∀ (i : Instr) (s : State) (r : Response), exec i s = .next (s.answer r) →
    (match i with
      | .encode _ _ => r.results.ra = 0 ∧ r.results.rb = 0 ∧ r.results.rc = 0
      | .decode _ => r.results.rc = 0 ∧ r.results.r = []
      | .split _ _ => r.results.r = [] ∧ r.results.ra.toNat < 2 ^ 48 ∧ r.results.rb.toNat < 2 ^ 40 ∧
          r.results.rc.toNat < 2 ^ 40
      | .join _ _ _ => r.results.rc = 0 ∧ r.results.r = []
      | .toDig _ _ => r.results.ra = 0 ∧ r.results.rb = 0 ∧ r.results.rc = 0
      | .fromDig sh _ => r.results.ra.toNat < 2 ^ sh.fieldBits ∧ r.results.rb = 0 ∧ r.results.rc = 0 ∧
          r.results.r = []
      | .xlitF _ => r.results.ra = 0 ∧ r.results.rb = 0 ∧ r.results.rc = 0
      | .xlitR _ => r.results.ra = 0 ∧ r.results.rb = 0 ∧ r.results.rc = 0) ∧
    (r.status ≠ 0 → r.results = {})) ∧
  (∀ r : Response, ∀ i < 26, r.results.r.length ≤ i → r.toRsp.extractLsb' (208 + 8 * i) 8 = 0) ∧
  (∀ r : Response, r.status ≠ 0 → r.toRsp.extractLsb' 8 408 = 0)

/-- 60_exceptions.md R180: the outcome codes, and which operation can produce which: ENCODE and SPLIT only OK, JOIN and
TODIG also FieldOverflow, XLITF and XLITR also InvalidLength and InvalidCharacter, DECODE and FROMDIG these three, and
IllegalOp exactly a request that selects no operation; codes 5, 6 and 7 are never produced. -/
def Obligations.StatusCodesAreThoseOfTheOperation : Prop :=
  (ErrorKind.code .invalidLength = 1 ∧ ErrorKind.code .invalidCharacter = 2 ∧ ErrorKind.code .fieldOverflow = 3 ∧
    ErrorKind.code .illegalOp = 4) ∧
  (∀ (i : Instr) (s : State), ∃ r : Response, exec i s = .next (s.answer r) ∧ r.status ∈ statusesOf i) ∧
  (∀ (q : ReqWord) (s : State) (r : Response), step (s.present q) = .next (s.answer r) →
    r.status.toNat ≤ 4 ∧ (r.status = 4 ↔ ∃ e, decodeReq q = .error e))

/-- 60_exceptions.md R185, R181 and R184, over the causes Safety.lean writes from section 1: exactly one error is
reported, the first in the order IllegalOp, InvalidLength, InvalidCharacter at the lowest position, FieldOverflow at
the lowest operand; a request with no cause is answered OK. -/
def Obligations.ErrorsFollowTheOrderOfPrecedence : Prop :=
  ∀ (q : ReqWord) (s : State),
    (∀ e : DecodeReject, decodeReq q = .error e →
      step (s.present q) = .next (s.answer (.err { kind := .illegalOp, epos := 0 }))) ∧
    (∀ i : Instr, decodeReq q = .ok i →
      (LengthCause i → step (s.present q) = .next (s.answer (.err { kind := .invalidLength, epos := 0 }))) ∧
      (¬ LengthCause i → ∀ p, CharacterCause i p →
        p ≤ 25 ∧ step (s.present q) = .next (s.answer (.err { kind := .invalidCharacter, epos := BitVec.ofNat 5 p }))) ∧
      (¬ LengthCause i → (∀ p, ¬ CharacterCause i p) → ∀ p, OverflowCause i p →
        p ≤ 2 ∧ step (s.present q) = .next (s.answer (.err { kind := .fieldOverflow, epos := BitVec.ofNat 5 p }))) ∧
      (¬ LengthCause i → (∀ p, ¬ CharacterCause i p) → (∀ p, ¬ OverflowCause i p) →
        ∃ res : Result, step (s.present q) = .next (s.answer (.ok res))))

/-! ### Invariant and runs -/

/-- Every step keeps every pending and delivered response a legal one: its string fits the cells and is spelled in one
alphabet, its error position is one its kind allows. -/
def Obligations.StepKeepsResponsesLegal : Prop :=
  ∀ s t : State, s.Legal → step s = .next t → t.Legal

/-- The state right after reset has only legal responses (it has none; log 6). -/
def Obligations.ResetResponsesAreLegal : Prop :=
  State.reset.Legal

/-- 20_memory.md section 5 (independence, order of responses, no cancellation) over the model's list of host actions (log
1, log 3), for every sequence of them without a reset, from every state: the run goes through, and what was delivered
and what is still pending are, in order of acceptance, the earlier responses and then for each request the response it
gets alone. -/
def Obligations.EveryAcceptedRequestIsAnsweredInOrder : Prop :=
  ∀ s : State, (∀ e ∈ s.events, e ≠ .reset) →
    ∃ (t : State) (rs : List Response), core.run s.events.length s = .next t ∧ t.events = [] ∧
      t.delivered ++ t.pending = s.delivered ++ s.pending ++ rs ∧
      (requestsOf s.events).map answerAlone = rs.map some

/-- 70_reset_and_hazards.md section 4, with the model's host actions (log 1) and its choice that nothing was delivered
at reset (log 6): a run is a finite list of requests given to one instance; its final state is exactly the list of
responses, each the operation function applied to its request, and nothing else is left. -/
def Obligations.RunEndsWithTheListOfResponses : Prop :=
  ∀ qs : List ReqWord, ∃ rs : List Response,
    core.run (2 * qs.length) { State.reset with events := runOf qs } =
      .next { events := [], pending := [], delivered := rs } ∧
    qs.map answerAlone = rs.map some

/-- 60_exceptions.md section 4 and 20_memory.md section 5 for the model's system of instances (Machine/System.lean, log
11): a step of one leaves every other as it was, and steps of two different instances can be exchanged. -/
def Obligations.InstancesDoNotDisturbEachOther : Prop :=
  ∀ (sys : System) (j k : Nat), j ≠ k →
    (stepInstance k sys)[j]? = sys[j]? ∧
    stepInstance j (stepInstance k sys) = stepInstance k (stepInstance j sys) ∧
    ∀ s : State, sys[k]? = some s → ∃ t : State, step s = .next t ∧ (stepInstance k sys)[k]? = some t

/-! ### Unit SPL -/

/-- 40_splitter.md R91: SPLIT answers OK for all 2^128 operand pairs, with the three fields by the rule's formulas. -/
def Obligations.SplitGivesTheThreeFields : Prop :=
  ∀ (high low : Word) (s : State),
    exec (.split high low) s = .next (s.answer (.ok {
      ra := ((high >>> 16).setWidth 48).setWidth 64
      rb := ((((high &&& 0xFFFF) <<< 24) ||| (low >>> 40)).setWidth 40).setWidth 64
      rc := ((low &&& 0xFFFFFFFFFF).setWidth 40).setWidth 64 }))

/-- SPLIT as pure wiring, the inference 40_splitter.md R91 marks as derived: time = high[63:16],
random1 = {high[15:0], low[63:40]}, random2 = low[39:0]. -/
def Obligations.SplitIsWiring : Prop :=
  ∀ (high low : Word) (s : State),
    exec (.split high low) s = .next (s.answer (.ok {
      ra := (high.extractLsb' 16 48).setWidth 64
      rb := (high.extractLsb' 0 16 ++ low.extractLsb' 40 24).setWidth 64
      rc := (low.extractLsb' 0 40).setWidth 64 }))

/-- 40_splitter.md R90: the identifier is V = {time, random1, random2} with widths 48, 40, 40, as a number, for the
fields SPLIT answers; V = high * 2^64 + low. -/
def Obligations.FieldsMakeUpTheIdentifier : Prop :=
  ∀ (high low : Word) (s : State), ∃ t r1 r2 : Word,
    exec (.split high low) s = .next (s.answer (.ok { ra := t, rb := r1, rc := r2 })) ∧
    t.toNat < 2 ^ 48 ∧ r1.toNat < 2 ^ 40 ∧ r2.toNat < 2 ^ 40 ∧
    t.toNat * 2 ^ 80 + r1.toNat * 2 ^ 40 + r2.toNat = high.toNat * 2 ^ 64 + low.toNat

/-- 40_splitter.md R92: JOIN of legal operands answers OK with `high` and `low` by the rule's formulas, and otherwise
FieldOverflow with the number of the first operand that exceeds its field. -/
def Obligations.JoinPutsTheFieldsTogether : Prop :=
  ∀ (t r1 r2 : Word) (s : State),
    (2 ^ 48 ≤ t.toNat → exec (.join t r1 r2) s = .next (s.answer (.err { kind := .fieldOverflow, epos := 0 }))) ∧
    (t.toNat < 2 ^ 48 → 2 ^ 40 ≤ r1.toNat →
      exec (.join t r1 r2) s = .next (s.answer (.err { kind := .fieldOverflow, epos := 1 }))) ∧
    (t.toNat < 2 ^ 48 → r1.toNat < 2 ^ 40 → 2 ^ 40 ≤ r2.toNat →
      exec (.join t r1 r2) s = .next (s.answer (.err { kind := .fieldOverflow, epos := 2 }))) ∧
    (t.toNat < 2 ^ 48 → r1.toNat < 2 ^ 40 → r2.toNat < 2 ^ 40 →
      exec (.join t r1 r2) s = .next (s.answer (.ok {
        ra := (t <<< 16) ||| (r1 >>> 24)
        rb := (r1 <<< 40) ||| (r2 &&& 0xFFFFFFFFFF) })))

/-- JOIN of legal operands as pure wiring, the inference 40_splitter.md R92 marks as derived:
high = {t[47:0], r1[39:24]} and low = {r1[23:0], r2[39:0]}. -/
def Obligations.JoinIsWiring : Prop :=
  ∀ (t r1 r2 : Word) (s : State), t.toNat < 2 ^ 48 → r1.toNat < 2 ^ 40 → r2.toNat < 2 ^ 40 →
    exec (.join t r1 r2) s = .next (s.answer (.ok {
      ra := t.extractLsb' 0 48 ++ r1.extractLsb' 24 16
      rb := r1.extractLsb' 0 24 ++ r2.extractLsb' 0 40 }))

/-- SPLIT and JOIN undo each other, which 40_splitter.md section 2 marks as derived: JOIN of what SPLIT answers gives the
halves back, and SPLIT of what JOIN answers for legal operands gives the operands back. -/
def Obligations.SplitAndJoinUndoEachOther : Prop :=
  (∀ (high low : Word) (s : State), ∃ t r1 r2 : Word,
    exec (.split high low) s = .next (s.answer (.ok { ra := t, rb := r1, rc := r2 })) ∧
    exec (.join t r1 r2) s = .next (s.answer (.ok { ra := high, rb := low }))) ∧
  (∀ (t r1 r2 : Word) (s : State), t.toNat < 2 ^ 48 → r1.toNat < 2 ^ 40 → r2.toNat < 2 ^ 40 →
    ∃ high low : Word,
      exec (.join t r1 r2) s = .next (s.answer (.ok { ra := high, rb := low })) ∧
      exec (.split high low) s = .next (s.answer (.ok { ra := t, rb := r1, rc := r2 })))

/-! ### Unit RCE -/

/-- 41_radix_engine.md R110: for 0 < v < 2^64, B32STR(v) is the one string over NUM of at least one digit without a
leading zero digit whose value is v, and its length is the least n with v < 32^n; B32STR(0) is one zero digit. -/
def Obligations.UnpaddedDigitsAreTheShortestOnes : Prop :=
  b32Str 0 = [0x30] ∧
  ∀ v : Nat, 0 < v → v < 2 ^ 64 →
    Over .num (b32Str v) ∧ 1 ≤ (b32Str v).length ∧ (b32Str v).head? ≠ some 0x30 ∧
    fieldValue .num (b32Str v) = v ∧
    v < 32 ^ (b32Str v).length ∧ (∀ n, v < 32 ^ n → (b32Str v).length ≤ n) ∧
    ∀ d : List Byte, Over .num d → 1 ≤ d.length → d.head? ≠ some 0x30 → fieldValue .num d = v → d = b32Str v

/-- Padding, 41_radix_engine.md section 1: it puts zero digits on the left up to width W and keeps the value. That the
engine never has more digits than the width it pads to is the inference that section marks as derived. -/
def Obligations.PaddingIsOnTheLeftAndKeepsTheValue : Prop :=
  (∀ (d : List Byte) (w : Nat), d.length ≤ w →
    padL d w = List.replicate (w - d.length) 0x30 ++ d ∧ (padL d w).length = w ∧
    fieldValue .num (padL d w) = fieldValue .num d) ∧
  (∀ v : Nat, v < 2 ^ 48 → (b32Str v).length ≤ 10) ∧ (∀ v : Nat, v < 2 ^ 40 → (b32Str v).length ≤ 8)

/-- 41_radix_engine.md R112: the parse of a string over NUM is the sum of its digits' values at their places, below
32^n; a string with a character outside NUM has no parse. -/
def Obligations.ParseIsThePositionalSum : Prop :=
  (∀ d : List Byte, Over .num d → b32Parse d = some (fieldValue .num d) ∧ fieldValue .num d < 32 ^ d.length) ∧
  (∀ d : List Byte, ¬ Over .num d → b32Parse d = none)

/-- 41_radix_engine.md R113: TODIG answers the W digits of a value that fits the field, padded on the left, and
FieldOverflow with `epos` 0 otherwise. -/
def Obligations.ToDigGivesThePaddedDigits : Prop :=
  ∀ (sh : Shape) (v : Word) (s : State),
    let fw := match sh with | .T => 48 | .R => 40
    let w := match sh with | .T => 10 | .R => 8
    (2 ^ fw ≤ v.toNat → exec (.toDig sh v) s = .next (s.answer (.err { kind := .fieldOverflow, epos := 0 }))) ∧
    (v.toNat < 2 ^ fw → ∃ d : List Byte, exec (.toDig sh v) s = .next (s.answer (.ok { r := d })) ∧
      d = padL (b32Str v.toNat) w ∧ d.length = w ∧ Over .num d ∧ fieldValue .num d = v.toNat)

/-- TODIG by five-bit slices, the inference of 41_radix_engine.md section 3: digit j is the symbol of the j-th five-bit
group counted from the most significant end. -/
def Obligations.ToDigIsSlicing : Prop :=
  ∀ (sh : Shape) (v : Word) (s : State), v.toNat < 2 ^ sh.fieldBits →
    exec (.toDig sh v) s = .next (s.answer (.ok { r := slicedDigits sh v }))

/-- 41_radix_engine.md R114: FROMDIG checks the length, then the characters (lowest position first), then the field
width, and answers the value of the digits. -/
def Obligations.FromDigGivesTheValue : Prop :=
  ∀ (sh : Shape) (d : StrOperand) (s : State), d.wf = true →
    let fw := match sh with | .T => 48 | .R => 40
    let w := match sh with | .T => 10 | .R => 8
    (d.slen.toNat ≠ w →
      exec (.fromDig sh d) s = .next (s.answer (.err { kind := .invalidLength, epos := 0 }))) ∧
    (d.slen.toNat = w → ∀ p, LowestForeign .num d.cells p →
      exec (.fromDig sh d) s = .next (s.answer (.err { kind := .invalidCharacter, epos := BitVec.ofNat 5 p }))) ∧
    (d.slen.toNat = w → Over .num d.cells → 2 ^ fw ≤ fieldValue .num d.cells →
      exec (.fromDig sh d) s = .next (s.answer (.err { kind := .fieldOverflow, epos := 0 }))) ∧
    (d.slen.toNat = w → Over .num d.cells → fieldValue .num d.cells < 2 ^ fw →
      exec (.fromDig sh d) s = .next (s.answer (.ok { ra := BitVec.ofNat 64 (fieldValue .num d.cells) })))

/-- When a field overflows, the inference of 41_radix_engine.md section 2 and 43_codec.md section 2: eight digits never
exceed 40 bits, and ten digits exceed 48 bits exactly when the first digit's value is 8 or more, which over CROCK is
when the first character is not one of `0` to `7`. -/
def Obligations.FirstDigitDecidesTheOverflow : Prop :=
  (∀ (A : Alphabet) (d : List Byte), d.length = 8 → fieldValue A d < 2 ^ 40) ∧
  (∀ (A : Alphabet) (d : List Byte), d.length = 10 → Over A d →
    (2 ^ 48 ≤ fieldValue A d ↔ ∃ g : Digit, A.index (d.getD 0 0) = some g ∧ 8 ≤ g.toNat) ∧
    (2 ^ 48 ≤ fieldValue A d ↔ ¬ (0x30 ≤ (d.getD 0 0).toNat ∧ (d.getD 0 0).toNat ≤ 0x37)))

/-- TODIG and FROMDIG undo each other at each shape, which 41_radix_engine.md section 3 marks as derived. -/
def Obligations.ToDigAndFromDigUndoEachOther : Prop :=
  (∀ (sh : Shape) (v : Word) (s : State), v.toNat < 2 ^ sh.fieldBits → ∃ d : List Byte,
    exec (.toDig sh v) s = .next (s.answer (.ok { r := d })) ∧
    exec (.fromDig sh (StrOperand.ofString d)) s = .next (s.answer (.ok { ra := v }))) ∧
  (∀ (sh : Shape) (d : List Byte) (s : State), d.length = sh.chars → Over .num d →
    fieldValue .num d < 2 ^ sh.fieldBits → ∃ v : Word,
      exec (.fromDig sh (StrOperand.ofString d)) s = .next (s.answer (.ok { ra := v })) ∧
      exec (.toDig sh v) s = .next (s.answer (.ok { r := d })))

/-! ### Unit XLT and the tables -/

/-- 10_state.md R22 and R23: the two tables are the two printed sequences of 32 symbols, by their codes. -/
def Obligations.TablesHoldThePrintedAlphabets : Prop :=
  Alphabet.num.table.map (fun c => Char.ofNat c.toNat) =
    ['0', '1', '2', '3', '4', '5', '6', '7', '8', '9', 'a', 'b', 'c', 'd', 'e', 'f',
     'g', 'h', 'i', 'j', 'k', 'l', 'm', 'n', 'o', 'p', 'q', 'r', 's', 't', 'u', 'v'] ∧
  Alphabet.crock.table.map (fun c => Char.ofNat c.toNat) =
    ['0', '1', '2', '3', '4', '5', '6', '7', '8', '9', 'A', 'B', 'C', 'D', 'E', 'F',
     'G', 'H', 'J', 'K', 'M', 'N', 'P', 'Q', 'R', 'S', 'T', 'V', 'W', 'X', 'Y', 'Z'] ∧
  ∀ (A : Alphabet) (d : Digit), A.table[d.toNat]? = some (A.symbol d)

/-- The inverse look-ups, 10_state.md section 2: the look-up of a character is the one index whose entry is that
character, and none for a character that is no entry. The sets by code, NUM exactly 0x30 to 0x39 and 0x61 to 0x76,
CROCK its code column, neither at 0x80 and above, are the inference that section marks as derived. -/
def Obligations.InverseLookUpsInvertTheTables : Prop :=
  (∀ (A : Alphabet) (c : Byte) (d : Digit), A.index c = some d ↔ A.symbol d = c) ∧
  (∀ (A : Alphabet) (c : Byte), A.index c = none ↔ ∀ d : Digit, A.symbol d ≠ c) ∧
  (∀ c : Byte, Alphabet.num.isSymbol c = true ↔
    (0x30 ≤ c.toNat ∧ c.toNat ≤ 0x39) ∨ (0x61 ≤ c.toNat ∧ c.toNat ≤ 0x76)) ∧
  (∀ c : Byte, Alphabet.crock.isSymbol c = true ↔ c ∈ Alphabet.crock.table) ∧
  (∀ (A : Alphabet) (c : Byte), 0x80 ≤ c.toNat → A.isSymbol c = false)

/-- 42_transliterator.md R130: XLIT has a value exactly on the strings over its source alphabet; the value has the same
length, and at each position the symbol of the other alphabet at the same index. -/
def Obligations.XlitKeepsLengthAndIndex : Prop :=
  ∀ (s : List Byte) (A1 A2 : Alphabet),
    ((∃ t, xlit s A1 A2 = some t) ↔ Over A1 s) ∧
    ∀ t, xlit s A1 A2 = some t → t.length = s.length ∧
      ∀ (i : Nat) (c : Byte), s[i]? = some c → ∃ d : Digit, A1.index c = some d ∧ t[i]? = some (A2.symbol d)

/-- 42_transliterator.md R131: XLITF rejects a string longer than the cells and then the lowest character outside NUM,
and otherwise answers the string with the CROCK symbol at each character's NUM index. -/
def Obligations.XlitFGivesTheCrockString : Prop :=
  ∀ (str : StrOperand) (s : State), str.wf = true →
    (26 < str.slen.toNat → exec (.xlitF str) s = .next (s.answer (.err { kind := .invalidLength, epos := 0 }))) ∧
    (str.slen.toNat ≤ 26 → ∀ p, LowestForeign .num str.cells p →
      exec (.xlitF str) s = .next (s.answer (.err { kind := .invalidCharacter, epos := BitVec.ofNat 5 p }))) ∧
    (str.slen.toNat ≤ 26 → Over .num str.cells → ∃ t : List Byte,
      exec (.xlitF str) s = .next (s.answer (.ok { r := t })) ∧ t.length = str.slen.toNat ∧
      ∀ i < str.slen.toNat, ∃ d : Digit, Alphabet.num.index (str.cells.getD i 0) = some d ∧
        t[i]? = some (Alphabet.crock.symbol d))

/-- 42_transliterator.md R132: XLITR rejects a string longer than the cells and then the lowest character outside
CROCK, and otherwise answers the string with the NUM symbol at each character's CROCK index. -/
def Obligations.XlitRGivesTheNumString : Prop :=
  ∀ (str : StrOperand) (s : State), str.wf = true →
    (26 < str.slen.toNat → exec (.xlitR str) s = .next (s.answer (.err { kind := .invalidLength, epos := 0 }))) ∧
    (str.slen.toNat ≤ 26 → ∀ p, LowestForeign .crock str.cells p →
      exec (.xlitR str) s = .next (s.answer (.err { kind := .invalidCharacter, epos := BitVec.ofNat 5 p }))) ∧
    (str.slen.toNat ≤ 26 → Over .crock str.cells → ∃ t : List Byte,
      exec (.xlitR str) s = .next (s.answer (.ok { r := t })) ∧ t.length = str.slen.toNat ∧
      ∀ i < str.slen.toNat, ∃ d : Digit, Alphabet.crock.index (str.cells.getD i 0) = some d ∧
        t[i]? = some (Alphabet.num.symbol d))

/-- XLITF and XLITR undo each other on strings of at most 26 characters and keep the value of a digit string, each read
with its own alphabet, which 42_transliterator.md section 3 marks as derived. -/
def Obligations.TransliterationsUndoEachOtherAndKeepTheValue : Prop :=
  (∀ (str : List Byte) (s : State), str.length ≤ 26 → Over .num str → ∃ t : List Byte,
    exec (.xlitF (StrOperand.ofString str)) s = .next (s.answer (.ok { r := t })) ∧
    exec (.xlitR (StrOperand.ofString t)) s = .next (s.answer (.ok { r := str })) ∧
    fieldValue .crock t = fieldValue .num str) ∧
  (∀ (str : List Byte) (s : State), str.length ≤ 26 → Over .crock str → ∃ t : List Byte,
    exec (.xlitR (StrOperand.ofString str)) s = .next (s.answer (.ok { r := t })) ∧
    exec (.xlitF (StrOperand.ofString t)) s = .next (s.answer (.ok { r := str })) ∧
    fieldValue .num t = fieldValue .crock str)

/-- XLITF on one character as the code offsets that 42_transliterator.md section 3 derives from the table. -/
def Obligations.TransliterationByCodeOffsets : Prop :=
  (∀ c : Byte, xlit [c] .num .crock = (xlitCode c).map fun x => [x]) ∧
  (∀ c x : Byte, xlit [x] .crock .num = some [c] ↔ xlitCode c = some x)

/-- Order is kept, which 41_radix_engine.md section 3 and 42_transliterator.md section 3 mark as derived: TODIG strings
compare by character code as their values do, and strings over NUM compare as their transliterations do. -/
def Obligations.DigitStringsCompareAsTheirValues : Prop :=
  (∀ (sh : Shape) (u v : Word) (s : State), u.toNat < 2 ^ sh.fieldBits → v.toNat < 2 ^ sh.fieldBits →
    ∃ d e : List Byte, exec (.toDig sh u) s = .next (s.answer (.ok { r := d })) ∧
      exec (.toDig sh v) s = .next (s.answer (.ok { r := e })) ∧ (u.toNat < v.toNat ↔ TextBefore d e)) ∧
  (∀ a b ta tb : List Byte, a.length = b.length → xlit a .num .crock = some ta → xlit b .num .crock = some tb →
    (TextBefore a b ↔ TextBefore ta tb) ∧ (TextBefore a b ↔ fieldValue .num a < fieldValue .num b))

/-! ### The whole codec -/

/-- 43_codec.md R150: ENCODE never fails; for all 2^128 operand pairs its text is the three fields of the split step,
each converted, padded and transliterated, put end to end, 26 characters. -/
def Obligations.EncodeIsSplitConvertTransliterate : Prop :=
  ∀ (high low : Word) (s : State), ∃ tstr r1str r2str : List Byte,
    xlit (padL (b32Str (high >>> 16).toNat) 10) .num .crock = some tstr ∧
    xlit (padL (b32Str (((high &&& 0xFFFF) <<< 24) ||| (low >>> 40)).toNat) 8) .num .crock = some r1str ∧
    xlit (padL (b32Str (low &&& 0xFFFFFFFFFF).toNat) 8) .num .crock = some r2str ∧
    tstr.length = 10 ∧ r1str.length = 8 ∧ r2str.length = 8 ∧
    exec (.encode high low) s = .next (s.answer (.ok { r := tstr ++ r1str ++ r2str }))

/-- ENCODE by the fused datapath, the inference of 43_codec.md section 1: character i is the CROCK symbol of the i-th
five-bit group of the identifier with two zero bits on top, V / 2^(125-5i) mod 32 as a number. -/
def Obligations.EncodeEqualsTheFusedDatapath : Prop :=
  ∀ (high low : Word) (s : State),
    exec (.encode high low) s = .next (s.answer (.ok { r := fusedText high low })) ∧
    ∀ i < 26, (idGroup high low i).toNat = (high.toNat * 2 ^ 64 + low.toNat) / 2 ^ (125 - 5 * i) % 32

/-- 43_codec.md R152: DECODE checks the length, then the alphabet (lowest position first), then the width of the
timestamp field, and answers the halves that the joiner's formulas give for the values of the three substrings. -/
def Obligations.DecodeChecksAndReassembles : Prop :=
  ∀ (text : StrOperand) (s : State), text.wf = true →
    (text.slen.toNat ≠ 26 →
      exec (.decode text) s = .next (s.answer (.err { kind := .invalidLength, epos := 0 }))) ∧
    (text.slen.toNat = 26 → ∀ p, LowestForeign .crock text.cells p →
      exec (.decode text) s = .next (s.answer (.err { kind := .invalidCharacter, epos := BitVec.ofNat 5 p }))) ∧
    (text.slen.toNat = 26 → Over .crock text.cells →
      let time50 := fieldValue .crock (substr text.cells 0 10)
      let random1 : Word := BitVec.ofNat 64 (fieldValue .crock (substr text.cells 10 18))
      let random2 : Word := BitVec.ofNat 64 (fieldValue .crock (substr text.cells 18 26))
      (2 ^ 48 ≤ time50 →
        exec (.decode text) s = .next (s.answer (.err { kind := .fieldOverflow, epos := 0 }))) ∧
      (time50 < 2 ^ 48 →
        exec (.decode text) s = .next (s.answer (.ok {
          ra := (BitVec.ofNat 64 time50 <<< 16) ||| (random1 >>> 24)
          rb := (random1 <<< 40) ||| (random2 &&& 0xFFFFFFFFFF) }))))

/-- DECODE by the fused datapath, the inference of 43_codec.md section 2: the 26 CROCK indexes concatenated are 130 bits,
an overflow when the top two are not 0, and otherwise the two halves; for every string operand a request can carry. -/
def Obligations.DecodeEqualsTheFusedDatapath : Prop :=
  ∀ (text : StrOperand) (s : State), text.wf = true →
    exec (.decode text) s = .next (s.answer (finish (fusedDecode text)))

/-- The first character of every ENCODE result is one of `0` to `7`, which 43_codec.md section 3 marks as derived; the
other 25 positions can hold every CROCK symbol. -/
def Obligations.EncodedTextsBeginWithZeroToSeven : Prop :=
  (∀ (high low : Word) (s : State), ∃ text : List Byte,
    exec (.encode high low) s = .next (s.answer (.ok { r := text })) ∧
    0x30 ≤ (text.getD 0 0).toNat ∧ (text.getD 0 0).toNat ≤ 0x37) ∧
  (∀ (i : Nat) (d : Digit) (s : State), 1 ≤ i → i < 26 → ∃ (high low : Word) (text : List Byte),
    exec (.encode high low) s = .next (s.answer (.ok { r := text })) ∧ text[i]? = some (Alphabet.crock.symbol d))

/-- The accepted strings, 43_codec.md section 3: DECODE answers OK exactly for them, of any length a host can hold, and
every other string gets one of the three errors. That there are 8 * 32^25 = 2^128 of them, one for each identifier, is
the inference that section marks as derived. -/
def Obligations.DecodeAcceptsExactlyTheAcceptedStrings : Prop :=
  (∀ (str : List Byte) (s : State),
    (Accepted str →
      ∃ high low : Word, exec (.decode (StrOperand.ofString str)) s = .next (s.answer (.ok { ra := high, rb := low }))) ∧
    (¬ Accepted str → ∃ e : OpError, exec (.decode (StrOperand.ofString str)) s = .next (s.answer (.err e)) ∧
      (e.kind = .invalidLength ∨ e.kind = .invalidCharacter ∨ e.kind = .fieldOverflow))) ∧
  (∃ f : Word × Word → List Byte,
    (∀ (high low : Word) (s : State), exec (.encode high low) s = .next (s.answer (.ok { r := f (high, low) }))) ∧
    Function.Injective f ∧ ∀ str, Accepted str ↔ ∃ x, f x = str) ∧
  8 * 32 ^ 25 = 2 ^ 128

/-- 43_codec.md R156, both round trips: DECODE of the text ENCODE answers gives the halves back, for all 2^128 pairs;
ENCODE of the halves DECODE answers gives the text back, for every accepted string; ENCODE's texts are accepted. -/
def Obligations.ValueAndTextRoundTrips : Prop :=
  (∀ (high low : Word) (s : State), ∃ text : List Byte,
    exec (.encode high low) s = .next (s.answer (.ok { r := text })) ∧ Accepted text ∧
    exec (.decode (StrOperand.ofString text)) s = .next (s.answer (.ok { ra := high, rb := low }))) ∧
  (∀ (text : List Byte) (s : State), Accepted text → ∃ high low : Word,
    exec (.decode (StrOperand.ofString text)) s = .next (s.answer (.ok { ra := high, rb := low })) ∧
    exec (.encode high low) s = .next (s.answer (.ok { r := text })))

/-- 43_codec.md R157, and the same of the transliterator and the radix engine: no case is folded. In a text or a string
over CROCK the lowest position that is not a symbol, when it holds a lower-case letter or one of I, L, O, U, is
reported; over NUM the same of an upper-case letter; and ENCODE produces no lower-case letter. -/
def Obligations.NoCaseIsFolded : Prop :=
  (∀ (A : Alphabet) (str : StrOperand) (s : State) (p : Nat) (c : Byte), str.wf = true → str.cells[p]? = some c →
    (∀ k < p, A.isSymbol (str.cells.getD k 0) = true) →
    match A with
    | .crock => (0x61 ≤ c.toNat ∧ c.toNat ≤ 0x7A) ∨ c ∈ [0x49, 0x4C, 0x4F, 0x55] →
        (str.slen.toNat = 26 →
          exec (.decode str) s = .next (s.answer (.err { kind := .invalidCharacter, epos := BitVec.ofNat 5 p }))) ∧
        (str.slen.toNat ≤ 26 →
          exec (.xlitR str) s = .next (s.answer (.err { kind := .invalidCharacter, epos := BitVec.ofNat 5 p })))
    | .num => 0x41 ≤ c.toNat ∧ c.toNat ≤ 0x5A →
        (str.slen.toNat ≤ 26 →
          exec (.xlitF str) s = .next (s.answer (.err { kind := .invalidCharacter, epos := BitVec.ofNat 5 p }))) ∧
        ∀ sh : Shape, str.slen.toNat = sh.chars →
          exec (.fromDig sh str) s = .next (s.answer (.err { kind := .invalidCharacter, epos := BitVec.ofNat 5 p }))) ∧
  (∀ (high low : Word) (s : State), ∃ text : List Byte,
    exec (.encode high low) s = .next (s.answer (.ok { r := text })) ∧
    ∀ c ∈ text, ¬ (0x61 ≤ c.toNat ∧ c.toNat ≤ 0x7A))

/-- 43_codec.md R158: every ENCODE response has status OK, `rlen` 26, and a CROCK symbol in each of the 26 cells of RSP.
-/
def Obligations.EncodeAnswers26CrockSymbols : Prop :=
  ∀ (high low : Word) (s : State), ∃ r : Response,
    exec (.encode high low) s = .next (s.answer r) ∧ Rsp.status r.toRsp = 0 ∧ Rsp.rlen r.toRsp = 26 ∧
    ∀ i < 26, Alphabet.crock.isSymbol (Rsp.cell r.toRsp i) = true

/-- 43_codec.md R159, the monotonic prefix: for two identifiers with timestamps t1 < t2 and arbitrary randomness, the
first ten characters of their texts compare as ordinary strings in the same order, and only then. -/
def Obligations.TimestampPrefixesCompareAsTimestamps : Prop :=
  ∀ (high1 low1 high2 low2 : Word) (s : State), ∃ text1 text2 : List Byte,
    exec (.encode high1 low1) s = .next (s.answer (.ok { r := text1 })) ∧
    exec (.encode high2 low2) s = .next (s.answer (.ok { r := text2 })) ∧
    ((high1 >>> 16).toNat < (high2 >>> 16).toNat ↔ TextBefore (text1.take 10) (text2.take 10))

/-- The whole texts of two identifiers compare as the 128-bit values do, which 43_codec.md section 3 marks as derived. -/
def Obligations.TextsCompareAsIdentifiers : Prop :=
  ∀ (high1 low1 high2 low2 : Word) (s : State), ∃ text1 text2 : List Byte,
    exec (.encode high1 low1) s = .next (s.answer (.ok { r := text1 })) ∧
    exec (.encode high2 low2) s = .next (s.answer (.ok { r := text2 })) ∧
    (high1.toNat * 2 ^ 64 + low1.toNat < high2.toNat * 2 ^ 64 + low2.toNat ↔ TextBefore text1 text2)

/-- 43_codec.md R160: the all-zero identifier encodes to 26 zero symbols, and that string decodes to (0, 0). -/
def Obligations.ZeroIdentifierIsTwentySixZeros : Prop :=
  ∀ s : State,
    exec (.encode 0 0) s = .next (s.answer (.ok { r := List.replicate 26 0x30 })) ∧
    exec (.decode (StrOperand.ofString (List.replicate 26 0x30))) s = .next (s.answer (.ok { ra := 0, rb := 0 }))

/-- 43_codec.md R161: lengths 0, 25 and 27 are InvalidLength whatever the cells hold, `U` and 25 zeros is
InvalidCharacter at 0, 26 `A` is FieldOverflow, and `7` with 25 `A` is accepted. -/
def Obligations.ListedTextsAreRejected : Prop :=
  ∀ s : State,
    (∀ (text : StrOperand), text.slen = 0 ∨ text.slen = 25 ∨ text.slen = 27 →
      exec (.decode text) s = .next (s.answer (.err { kind := .invalidLength, epos := 0 }))) ∧
    (∀ n ∈ [0, 25, 27], exec (.decode (StrOperand.ofString (List.replicate n 0x41))) s =
      .next (s.answer (.err { kind := .invalidLength, epos := 0 }))) ∧
    exec (.decode (StrOperand.ofString (0x55 :: List.replicate 25 0x30))) s =
      .next (s.answer (.err { kind := .invalidCharacter, epos := 0 })) ∧
    exec (.decode (StrOperand.ofString (List.replicate 26 0x41))) s =
      .next (s.answer (.err { kind := .fieldOverflow, epos := 0 })) ∧
    exec (.decode (StrOperand.ofString (0x37 :: List.replicate 25 0x41))) s =
      .next (s.answer (.ok { ra := 0xEA5294A5294A5294, rb := 0xA5294A5294A5294A })) ∧
    exec (.decode (StrOperand.ofString (List.replicate 26 0x30))) s = .next (s.answer (.ok {}))

/-- The codec in terms of the unit operations, which 43_codec.md section 3 marks as derived: ENCODE's text is put
together from SPLIT, TODIG and XLITF, and DECODE's halves of an accepted string come from XLITR, FROMDIG and JOIN. Of
strings that are not accepted it says nothing. -/
def Obligations.CodecIsComposedOfTheUnits : Prop :=
  (∀ (high low : Word) (s : State), ∃ (t r1 r2 : Word) (dt d1 d2 tt t1 t2 : List Byte),
    exec (.split high low) s = .next (s.answer (.ok { ra := t, rb := r1, rc := r2 })) ∧
    exec (.toDig .T t) s = .next (s.answer (.ok { r := dt })) ∧
    exec (.toDig .R r1) s = .next (s.answer (.ok { r := d1 })) ∧
    exec (.toDig .R r2) s = .next (s.answer (.ok { r := d2 })) ∧
    exec (.xlitF (StrOperand.ofString dt)) s = .next (s.answer (.ok { r := tt })) ∧
    exec (.xlitF (StrOperand.ofString d1)) s = .next (s.answer (.ok { r := t1 })) ∧
    exec (.xlitF (StrOperand.ofString d2)) s = .next (s.answer (.ok { r := t2 })) ∧
    exec (.encode high low) s = .next (s.answer (.ok { r := tt ++ t1 ++ t2 }))) ∧
  (∀ (text : List Byte) (s : State), Accepted text →
    ∃ (dt d1 d2 : List Byte) (t r1 r2 high low : Word),
      exec (.xlitR (StrOperand.ofString (substr text 0 10))) s = .next (s.answer (.ok { r := dt })) ∧
      exec (.xlitR (StrOperand.ofString (substr text 10 18))) s = .next (s.answer (.ok { r := d1 })) ∧
      exec (.xlitR (StrOperand.ofString (substr text 18 26))) s = .next (s.answer (.ok { r := d2 })) ∧
      exec (.fromDig .T (StrOperand.ofString dt)) s = .next (s.answer (.ok { ra := t })) ∧
      exec (.fromDig .R (StrOperand.ofString d1)) s = .next (s.answer (.ok { ra := r1 })) ∧
      exec (.fromDig .R (StrOperand.ofString d2)) s = .next (s.answer (.ok { ra := r2 })) ∧
      exec (.join t r1 r2) s = .next (s.answer (.ok { ra := high, rb := low })) ∧
      exec (.decode (StrOperand.ofString text)) s = .next (s.answer (.ok { ra := high, rb := low })))

/-- The public names of the document, 30_encoding.md section 4 and 40_splitter.md section 4: what each expands to;
`fromHalves` and `toHalves` cause no transaction. That `toHalves` of `fromHalves` gives the pair back is
the inference the latter section marks as derived; the other way round follows from the same two rules. -/
def Obligations.PublicNamesExpandToTransactions : Prop :=
  (∀ (high low : Word) (id : Identifier) (text : List Byte),
    Pseudo.expand (.format id) = some (.encode id.high id.low) ∧
    Pseudo.expand (.parse text) = some (.decode (StrOperand.ofString text)) ∧
    Pseudo.expand (.fromHalves high low) = none ∧ Pseudo.expand (.toHalves id) = none ∧
    Pseudo.expand (.encode high low) = some (.encode high low) ∧
    Pseudo.expand (.decode text) = some (.decode (StrOperand.ofString text))) ∧
  (∀ high low : Word, fromHalves high low = { high := high, low := low } ∧
    toHalves (fromHalves high low) = (high, low)) ∧
  (∀ id : Identifier, fromHalves (toHalves id).1 (toHalves id).2 = id)
end

