-- ==== Sys2Proof/Laws/State.lean ====
section
/-! SUPPORT. One lemma per field of State and update of it, so that no proof unfolds a record update. -/

namespace Sys2Proof.Machine

@[simp] theorem answer_events (s : State) (r : Response) : (s.answer r).events = s.events := rfl

@[simp] theorem answer_pending (s : State) (r : Response) : (s.answer r).pending = s.pending ++ [r] := rfl

@[simp] theorem answer_delivered (s : State) (r : Response) : (s.answer r).delivered = s.delivered := rfl

@[simp] theorem resetBlock_events (s : State) : s.resetBlock.events = s.events := rfl

@[simp] theorem resetBlock_pending (s : State) : s.resetBlock.pending = [] := rfl

@[simp] theorem resetBlock_delivered (s : State) : s.resetBlock.delivered = s.delivered := rfl

@[simp] theorem present_events (s : State) (q : ReqWord) : (s.present q).events = .request q :: s.events := rfl

@[simp] theorem present_pending (s : State) (q : ReqWord) : (s.present q).pending = s.pending := rfl

@[simp] theorem present_delivered (s : State) (q : ReqWord) : (s.present q).delivered = s.delivered := rfl

@[simp] theorem idle_eq (s : State) : s.idle = s := rfl

@[simp] theorem deliver_events (s : State) : s.deliver.events = s.events := by
  unfold State.deliver
  split <;> rfl

@[simp] theorem deliver_pending (s : State) : s.deliver.pending = s.pending.tail := by
  unfold State.deliver
  split <;> simp_all

/-- A delivery moves the oldest pending response, if there is one, to the end of the delivered ones. -/
@[simp] theorem deliver_delivered (s : State) :
    s.deliver.delivered = s.delivered ++ s.pending.head?.toList := by
  unfold State.deliver
  split <;> simp_all

@[simp] theorem reset_events : State.reset.events = [] := rfl

@[simp] theorem reset_pending : State.reset.pending = [] := rfl

@[simp] theorem reset_delivered : State.reset.delivered = [] := rfl

/-- The response an accepted request adds is determined by the state it leads to. -/
@[simp] theorem answer_inj {s : State} {r r' : Response} : s.answer r = s.answer r' ↔ r = r' := by
  constructor
  · intro h
    have := congrArg State.pending h
    simpa using this
  · rintro rfl
    rfl

end Sys2Proof.Machine
end

