-- ==== Sys2Proof/Laws/Ops.lean ====
section
/-! SUPPORT. What the shared operations can do: raising, ending an operation, the character checks. -/

namespace Sys2Proof.Machine

/-! ### Raising and ending -/

@[simp] theorem finish_ok (res : Result) : finish (.ok res) = .ok res := rfl

@[simp] theorem finish_error (e : OpError) : finish (.error e) = .err e := rfl

@[simp] theorem finish_raise (kind : ErrorKind) (pos : Nat) :
    finish (raise kind pos) = .err { kind := kind, epos := BitVec.ofNat 5 pos } := rfl

/-- A raise ends the operation: nothing after it runs (60_exceptions.md R186). -/
@[simp] theorem raise_bind {α β : Type} (kind : ErrorKind) (pos : Nat) (f : α → Op β) :
    (raise kind pos : Op α) >>= f = raise kind pos := rfl

@[simp] theorem ok_bind {α β : Type} (x : α) (f : α → Op β) : (Except.ok x : Op α) >>= f = f x := rfl

@[simp] theorem pure_eq_ok {α : Type} (x : α) : (pure x : Op α) = .ok x := rfl

theorem raise_ne_ok {α : Type} (kind : ErrorKind) (pos : Nat) (x : α) : (raise kind pos : Op α) ≠ .ok x := by
  simp [raise]

/-- A guard that raises, as it stands in the operation rules' pseudocode. -/
theorem guard_bind {α : Type} (p : Prop) [Decidable p] (kind : ErrorKind) (pos : Nat) (f : Unit → Op α) :
    ((if p then raise kind pos else pure ()) >>= f : Op α) = if p then raise kind pos else f () := by
  split <;> rfl

/-- An operation always completes: the next state is the old one with its response added. -/
theorem complete_next (op : Op Result) (s : State) : complete op s = .next (s.answer (finish op)) := rfl

@[simp] theorem complete_eq_next_iff {op : Op Result} {s : State} {r : Response} :
    complete op s = .next (s.answer r) ↔ finish op = r := by
  simp [complete]

@[simp] theorem illegalResponse_eq : illegalResponse = .err { kind := .illegalOp, epos := 0 } := rfl

/-! ### The character checks -/

/-- On a string over the alphabet the check passes. -/
theorem checkMember_ok {A : Alphabet} {s : List Byte} (h : ∀ c ∈ s, A.isSymbol c = true) :
    checkMember A s = .ok () := by
  have hall : s.all A.isSymbol = true := by simpa using h
  simp [checkMember, hall]

/-- Otherwise it raises InvalidCharacter at the first foreign character. -/
theorem checkMember_raise {A : Alphabet} {s : List Byte} (h : ¬ ∀ c ∈ s, A.isSymbol c = true) :
    checkMember A s = raise .invalidCharacter (firstBad A s) := by
  have hall : ¬ (s.all A.isSymbol = true) := by simpa using h
  rw [checkMember, if_neg hall]

/-- The position reported is the lowest foreign one (60_exceptions.md R182). -/
theorem firstBad_eq {A : Alphabet} {s : List Byte} {p : Nat} (hp : p < s.length)
    (hbad : A.isSymbol (s.getD p 0) = false) (hlow : ∀ k < p, A.isSymbol (s.getD k 0) = true) :
    firstBad A s = p := by
  unfold firstBad
  rw [List.findIdx_eq hp]
  refine ⟨?_, fun j hj => ?_⟩
  · simpa [List.getD_eq_getElem?_getD, hp] using hbad
  · have hjs : j < s.length := lt_trans hj hp
    simpa [List.getD_eq_getElem?_getD, hjs] using hlow j hj

theorem firstBad_le_length (A : Alphabet) (s : List Byte) : firstBad A s ≤ s.length :=
  List.findIdx_le_length

@[simp] theorem orInvalidCharacter_some {α : Type} (A : Alphabet) (s : List Byte) (x : α) :
    orInvalidCharacter A s (some x) = .ok x := rfl

@[simp] theorem orInvalidCharacter_none {α : Type} (A : Alphabet) (s : List Byte) :
    orInvalidCharacter A s (none : Option α) = raise .invalidCharacter (firstBad A s) := rfl

end Sys2Proof.Machine
end

