-- ==== Sys2Proof/Laws/Tables.lean ====
section
/-! SUPPORT. The tables and their look-ups (10_state.md R22 to R24). -/

namespace Sys2Proof.Machine

@[simp] theorem table_length (A : Alphabet) : A.table.length = 32 := by cases A <;> rfl

theorem table_nodup (A : Alphabet) : A.table.Nodup := by cases A <;> decide

theorem symbol_eq_getElem (A : Alphabet) (d : Digit) :
    A.symbol d = A.table[d.toNat]'(by rw [table_length]; exact d.isLt) := by
  rw [Alphabet.symbol, List.getD_eq_getElem _ _ (by rw [table_length]; exact d.isLt)]

/-- Looking a symbol up gives its index back. -/
@[simp] theorem index_symbol (A : Alphabet) (d : Digit) : A.index (A.symbol d) = some d := by
  have h : d.toNat < A.table.length := by rw [table_length]; exact d.isLt
  have hf : A.table.findIdx? (· == A.symbol d) = some d.toNat := by
    rw [List.findIdx?_eq_some_iff_getElem]
    refine ⟨h, by simp [symbol_eq_getElem], fun j hj => ?_⟩
    have hjl : j < A.table.length := lt_trans hj h
    have hne : A.table[j] ≠ A.table[d.toNat] := fun he =>
      absurd ((table_nodup A).getElem_inj_iff.mp he) (Nat.ne_of_lt hj)
    simpa [symbol_eq_getElem] using hne
  simp [Alphabet.index, hf]

/-- The index of a character is one whose entry it is. -/
theorem symbol_of_index {A : Alphabet} {c : Byte} {d : Digit} (h : A.index c = some d) : A.symbol d = c := by
  unfold Alphabet.index at h
  cases hf : A.table.findIdx? (· == c) with
  | none => simp [hf] at h
  | some j =>
    have hd : BitVec.ofNat 5 j = d := by simpa [hf] using h
    obtain ⟨hj, he, -⟩ := List.findIdx?_eq_some_iff_getElem.mp hf
    have hn : d.toNat = j := by
      rw [← hd, BitVec.toNat_ofNat]
      exact Nat.mod_eq_of_lt (by simpa using hj)
    simp only [symbol_eq_getElem, hn]
    simpa using he

@[simp] theorem isSymbol_symbol (A : Alphabet) (d : Digit) : A.isSymbol (A.symbol d) = true := by
  simp [Alphabet.isSymbol]

theorem isSymbol_iff {A : Alphabet} {c : Byte} : A.isSymbol c = true ↔ ∃ d, A.symbol d = c := by
  constructor
  · intro h
    obtain ⟨d, hd⟩ := Option.isSome_iff_exists.mp h
    exact ⟨d, symbol_of_index hd⟩
  · rintro ⟨d, rfl⟩
    exact isSymbol_symbol A d

theorem symbol_inj {A : Alphabet} {d e : Digit} : A.symbol d = A.symbol e ↔ d = e := by
  constructor
  · intro h
    have := congrArg A.index h
    simpa using this
  · rintro rfl
    rfl

/-- The character codes of both tables rise with the index (10_state.md R23, 42_transliterator.md R135). -/
theorem table_rising (A : Alphabet) : A.table.Pairwise (fun a b => a.toNat < b.toNat) := by
  cases A <;> decide

end Sys2Proof.Machine
end

