-- ==== Sys2Proof/Laws/Digits.lean ====
section
/-! SUPPORT. Digit sequences and their spellings. A string over an alphabet is the spelling of one digit sequence, and
every primitive acts on spellings digit by digit (41_radix_engine.md, 42_transliterator.md). -/

namespace Sys2Proof.Machine

/-! ### Spellings -/

theorem spelling_symbols (A : Alphabet) (ds : List Digit) : ∀ c ∈ ds.map A.symbol, A.isSymbol c = true := by
  simp +contextual

/-- The strings over an alphabet are the spellings. -/
theorem exists_spelling {A : Alphabet} {s : List Byte} (h : ∀ c ∈ s, A.isSymbol c = true) :
    ∃ ds : List Digit, s = ds.map A.symbol := by
  induction s with
  | nil => exact ⟨[], rfl⟩
  | cons c cs ih =>
    obtain ⟨ds, hds⟩ := ih fun x hx => h x (by simp [hx])
    obtain ⟨d, hd⟩ := isSymbol_iff.mp (h c (by simp))
    exact ⟨d :: ds, by simp [hds, hd]⟩

theorem spelling_inj {A : Alphabet} {ds es : List Digit} : ds.map A.symbol = es.map A.symbol ↔ ds = es :=
  (List.map_injective_iff.mpr fun _ _ h => symbol_inj.mp h).eq_iff

theorem mapM_index_spelling (A : Alphabet) (ds : List Digit) :
    (ds.map A.symbol).mapM A.index = some ds := by
  induction ds with
  | nil => rfl
  | cons d ds ih => rw [List.map_cons, List.mapM_cons, index_symbol, ih]; rfl

@[simp] theorem xlit_spelling (A1 A2 : Alphabet) (ds : List Digit) :
    xlit (ds.map A1.symbol) A1 A2 = some (ds.map A2.symbol) := by
  unfold xlit
  induction ds with
  | nil => rfl
  | cons d ds ih => rw [List.map_cons, List.mapM_cons, index_symbol, ih]; rfl

theorem mapM_index_eq_none {A : Alphabet} {s : List Byte} (h : ¬ ∀ c ∈ s, A.isSymbol c = true) :
    s.mapM A.index = none := by
  induction s with
  | nil => simp at h
  | cons c cs ih =>
    cases hc : A.index c with
    | none => simp [List.mapM_cons, hc]
    | some d =>
      have hcs : ¬ ∀ x ∈ cs, A.isSymbol x = true := fun hall => h fun x hx => by
        rcases List.mem_cons.mp hx with rfl | hx
        · simp [Alphabet.isSymbol, hc]
        · exact hall x hx
      simp [List.mapM_cons, hc, ih hcs]

theorem xlit_eq_none {A1 A2 : Alphabet} {s : List Byte} (h : ¬ ∀ c ∈ s, A1.isSymbol c = true) :
    xlit s A1 A2 = none := by
  unfold xlit
  induction s with
  | nil => simp at h
  | cons c cs ih =>
    cases hc : A1.index c with
    | none => simp [List.mapM_cons, hc]
    | some d =>
      have hcs : ¬ ∀ x ∈ cs, A1.isSymbol x = true := fun hall => h fun x hx => by
        rcases List.mem_cons.mp hx with rfl | hx
        · simp [Alphabet.isSymbol, hc]
        · exact hall x hx
      simp [List.mapM_cons, hc, ih hcs]

/-- A transliteration step on a spelling respells it. -/
@[simp] theorem opXlit_spelling (A1 A2 : Alphabet) (ds : List Digit) :
    opXlit (ds.map A1.symbol) A1 A2 = .ok (ds.map A2.symbol) := by
  simp [opXlit, checkMember_ok (spelling_symbols A1 ds)]

/-- On any other string it raises InvalidCharacter at the first foreign character. -/
theorem opXlit_raise {A1 A2 : Alphabet} {s : List Byte} (h : ¬ ∀ c ∈ s, A1.isSymbol c = true) :
    opXlit s A1 A2 = raise .invalidCharacter (firstBad A1 s) := by
  simp [opXlit, checkMember_raise h]

@[simp] theorem b32Parse_spelling (ds : List Digit) :
    b32Parse (ds.map Alphabet.num.symbol) = some (digitsValue ds) := by
  rw [b32Parse, mapM_index_spelling, Option.map_some]

/-- DECODE reads one field of digits as their value. -/
@[simp] theorem decodeField_spelling (ds : List Digit) :
    decodeField (ds.map Alphabet.crock.symbol) = .ok (digitsValue ds) := by
  simp [decodeField]

/-! ### Values of digit sequences -/

theorem foldl_digits (ds : List Digit) (acc : Nat) :
    ds.foldl (fun acc d => acc * 32 + d.toNat) acc = acc * 32 ^ ds.length + digitsValue ds := by
  unfold digitsValue
  induction ds generalizing acc with
  | nil => simp
  | cons d ds ih =>
    simp only [List.foldl_cons, List.length_cons]
    rw [ih (acc * 32 + d.toNat), ih (0 * 32 + d.toNat)]
    ring

@[simp] theorem digitsValue_nil : digitsValue [] = 0 := rfl

@[simp] theorem digitsValue_cons (d : Digit) (ds : List Digit) :
    digitsValue (d :: ds) = d.toNat * 32 ^ ds.length + digitsValue ds := by
  have h := foldl_digits ds (0 * 32 + d.toNat)
  simpa [digitsValue] using h

theorem digitsValue_append (ds es : List Digit) :
    digitsValue (ds ++ es) = digitsValue ds * 32 ^ es.length + digitsValue es := by
  induction ds with
  | nil => simp
  | cons d ds ih =>
    simp only [List.cons_append, digitsValue_cons, ih, List.length_append, pow_add]
    ring

theorem digitsValue_lt (ds : List Digit) : digitsValue ds < 32 ^ ds.length := by
  induction ds with
  | nil => simp
  | cons d ds ih =>
    have hd : d.toNat < 32 := d.isLt
    simp only [digitsValue_cons, List.length_cons, pow_succ]
    nlinarith

@[simp] theorem digitsValue_replicate_zero (n : Nat) : digitsValue (List.replicate n (0 : Digit)) = 0 := by
  induction n with
  | zero => rfl
  | succ n ih =>
    rw [List.replicate_succ, digitsValue_cons, ih]
    simp

/-- Digit sequences of one length are determined by their value. -/
theorem digitsValue_inj {ds es : List Digit} (hl : ds.length = es.length) (hv : digitsValue ds = digitsValue es) :
    ds = es := by
  induction ds generalizing es with
  | nil => cases es with
    | nil => rfl
    | cons _ _ => simp at hl
  | cons d ds ih => cases es with
    | nil => simp at hl
    | cons e es =>
      have hl' : ds.length = es.length := by simpa using hl
      have h1 := digitsValue_lt ds
      have h2 := digitsValue_lt es
      simp only [digitsValue_cons, hl'] at hv h1
      have hde : d.toNat = e.toNat := by
        rcases Nat.lt_trichotomy d.toNat e.toNat with h | h | h
        · exfalso; nlinarith
        · exact h
        · exfalso; nlinarith
      have hv' : digitsValue ds = digitsValue es := by
        rw [hde] at hv; omega
      rw [BitVec.eq_of_toNat_eq hde, ih hl' hv']

/-- Digit sequences of one length compare as their values. -/
theorem digitsValue_cons_lt_iff {d e : Digit} {ds es : List Digit} (hl : ds.length = es.length) :
    digitsValue (d :: ds) < digitsValue (e :: es) ↔
      d.toNat < e.toNat ∨ d = e ∧ digitsValue ds < digitsValue es := by
  have h1 := digitsValue_lt ds
  have h2 := digitsValue_lt es
  simp only [digitsValue_cons, hl] at h1 ⊢
  rcases Nat.lt_trichotomy d.toNat e.toNat with h | h | h
  · simp only [h, true_or, iff_true]; nlinarith
  · have hde : d = e := BitVec.eq_of_toNat_eq h
    subst hde
    simp
  · have hne : d ≠ e := fun he => by subst he; exact absurd h (lt_irrefl _)
    simp only [hne, false_and, or_false]
    constructor
    · intro hlt; exfalso; nlinarith
    · intro hlt; omega

/-! ### The unpadded and the padded digits -/

theorem b32Digits_value {fuel v : Nat} (h : v < 32 ^ fuel) (h0 : 0 < fuel) : digitsValue (b32Digits fuel v) = v := by
  induction fuel generalizing v with
  | zero => omega
  | succ fuel ih =>
    unfold b32Digits
    split
    · rename_i hv
      simp [Nat.mod_eq_of_lt hv]
    · rename_i hv
      have hf : 0 < fuel := by
        rcases Nat.eq_zero_or_pos fuel with rfl | hf
        · simp at h; omega
        · exact hf
      have hd : v / 32 < 32 ^ fuel := by
        rw [Nat.div_lt_iff_lt_mul (by norm_num), ← pow_succ]; exact h
      have hm : v % 32 < 32 := Nat.mod_lt _ (by norm_num)
      rw [digitsValue_append, ih hd hf]
      simp [Nat.mod_eq_of_lt hm]
      omega

theorem b32Digits_length_le {fuel v n : Nat} (hn : 0 < n) (h : v < 32 ^ n) : (b32Digits fuel v).length ≤ n := by
  induction fuel generalizing v n with
  | zero => simp [b32Digits]
  | succ fuel ih =>
    unfold b32Digits
    split
    · simp only [List.length_singleton]; omega
    · rename_i hv
      obtain ⟨m, rfl⟩ : ∃ m, n = m + 1 := ⟨n - 1, by omega⟩
      have hm : 0 < m := by
        rcases Nat.eq_zero_or_pos m with rfl | hm
        · simp at h; omega
        · exact hm
      have hd : v / 32 < 32 ^ m := by
        rw [Nat.div_lt_iff_lt_mul (by norm_num), ← pow_succ]; exact h
      simpa using ih hm hd

/-- The digits of a number at a fixed width. -/
def fixedDigits (w v : Nat) : List Digit := List.replicate (w - (b32Digits 13 v).length) 0 ++ b32Digits 13 v

theorem fixedDigits_length {w v : Nat} (hw : 0 < w) (h : v < 32 ^ w) : (fixedDigits w v).length = w := by
  have := b32Digits_length_le (fuel := 13) hw h
  simp [fixedDigits]; omega

theorem fixedDigits_value {w v : Nat} (h : v < 32 ^ 13) : digitsValue (fixedDigits w v) = v := by
  rw [fixedDigits, digitsValue_append, digitsValue_replicate_zero, b32Digits_value h (by norm_num)]
  simp

/-- Padding and converting spells the digits at the fixed width (41_radix_engine.md R111). -/
theorem padL_b32Str (v w : Nat) : padL (b32Str v) w = (fixedDigits w v).map Alphabet.num.symbol := by
  simp [padL, b32Str, fixedDigits]

/-- The digits at a fixed width are the only ones with the value. -/
theorem fixedDigits_digitsValue {ds : List Digit} (h0 : 0 < ds.length) (h : ds.length ≤ 13) :
    fixedDigits ds.length (digitsValue ds) = ds := by
  have hlt := digitsValue_lt ds
  have h13 : digitsValue ds < 32 ^ 13 := lt_of_lt_of_le hlt (Nat.pow_le_pow_right (by norm_num) h)
  exact digitsValue_inj (fixedDigits_length h0 hlt) (fixedDigits_value h13)

end Sys2Proof.Machine
end

