-- ==== Sys2Proof/Laws/Operations.lean ====
section
/-! SUPPORT. What each operation with a string operand can come to: its length error, its character error, or its
result on the spelling of a digit sequence. And what the terms of the claims say of spellings. -/

namespace Sys2Proof.Machine

/-! ### Values and alphabets of strings -/

/-- The value of a longer digit string, one character at a time from the front (20_memory.md R42). -/
theorem fieldValue_cons (A : Alphabet) (c : Byte) (cs : List Byte) :
    fieldValue A (c :: cs) = ((A.index c).getD 0).toNat * 32 ^ cs.length + fieldValue A cs := by
  unfold fieldValue
  rw [List.length_cons, List.range_succ_eq_map, List.map_cons, List.sum_cons, List.map_map]
  refine congrArg₂ _ (by simp) (congrArg _ (List.map_congr_left fun j hj => ?_))
  have hj : j < cs.length := by simpa using hj
  have e : cs.length + 1 - 1 - (j + 1) = cs.length - 1 - j := by omega
  simp only [Function.comp, Nat.succ_eq_add_one, e]
  simp

theorem fieldValue_spelling (A : Alphabet) (ds : List Digit) : fieldValue A (ds.map A.symbol) = digitsValue ds := by
  induction ds with
  | nil => rfl
  | cons d ds ih => rw [List.map_cons, fieldValue_cons, ih, index_symbol, List.length_map, digitsValue_cons]; rfl

theorem over_spelling (A : Alphabet) (ds : List Digit) : Over A (ds.map A.symbol) := spelling_symbols A ds

theorem exists_spelling_of_over {A : Alphabet} {s : List Byte} (h : Over A s) :
    ∃ ds : List Digit, s = ds.map A.symbol := exists_spelling h

theorem not_over_of_lowestForeign {A : Alphabet} {s : List Byte} {p : Nat} (h : LowestForeign A s p) :
    ¬ Over A s := by
  intro hall
  obtain ⟨hp, hb, -⟩ := h
  have := hall (s.getD p 0) (by rw [List.getD_eq_getElem _ _ hp]; exact List.getElem_mem hp)
  rw [hb] at this
  exact absurd this (by decide)

/-- The check reports the lowest foreign position (60_exceptions.md R182). -/
theorem firstBad_of_lowestForeign {A : Alphabet} {s : List Byte} {p : Nat} (h : LowestForeign A s p) :
    firstBad A s = p := firstBad_eq h.1 h.2.1 h.2.2

/-- A string without a lowest foreign position is a string over the alphabet. -/
theorem over_of_forall_not_lowestForeign {A : Alphabet} {s : List Byte} (h : ∀ p, ¬ LowestForeign A s p) :
    Over A s := by
  by_contra hn
  have hlt : firstBad A s < s.length := by
    unfold firstBad
    rw [List.findIdx_lt_length]
    simp only [Over, not_forall] at hn
    obtain ⟨c, hc, hb⟩ := hn
    exact ⟨c, hc, by simpa using hb⟩
  refine h (firstBad A s) ⟨hlt, ?_, fun k hk => ?_⟩
  · have := List.findIdx_getElem (xs := s) (p := fun c => !A.isSymbol c) (w := hlt)
    rw [List.getD_eq_getElem _ _ hlt]
    unfold firstBad
    simpa using this
  · have := List.not_of_lt_findIdx hk
    rw [List.getD_eq_getElem _ _ (by omega)]
    simpa using this

/-! ### DECODE -/

theorem opDecode_length {t : StrOperand} (h : t.slen.toNat ≠ 26) : opDecode t = raise .invalidLength 0 := by
  simp [opDecode, h]

theorem opDecode_character {t : StrOperand} (h : t.slen.toNat = 26) (hb : ¬ Over .crock t.cells) :
    opDecode t = raise .invalidCharacter (firstBad .crock t.cells) := by
  simp [opDecode, h, checkMember_raise hb]

theorem substr_spelling (A : Alphabet) (ds : List Digit) (i j : Nat) :
    substr (ds.map A.symbol) i j = ((ds.drop i).take (j - i)).map A.symbol := by
  simp [substr, List.map_take, List.map_drop]

theorem opDecode_spelling (l : BitVec 8) (ds : List Digit) (hl : l.toNat = 26) :
    opDecode { slen := l, cells := ds.map Alphabet.crock.symbol } =
      (if 2 ^ 48 ≤ digitsValue (ds.take 10) then raise .fieldOverflow 0
      else .ok {
        ra := joinHigh (BitVec.ofNat 64 (digitsValue (ds.take 10)))
          (BitVec.ofNat 64 (digitsValue ((ds.drop 10).take 8)))
        rb := joinLow (BitVec.ofNat 64 (digitsValue ((ds.drop 10).take 8)))
          (BitVec.ofNat 64 (digitsValue ((ds.drop 18).take 8))) }) := by
  simp only [opDecode, hl, substr_spelling, decodeField_spelling, checkMember_ok (spelling_symbols _ _)]
  simp only [Config.textLen, ne_eq, not_true, if_false, pure_eq_ok, ok_bind, Config.tsBits, List.drop_zero,
    Nat.reduceSub]
  split
  · simp [raise_bind]
  · simp

/-! ### FROMDIG -/

theorem opFromDig_length {sh : Shape} {t : StrOperand} (h : t.slen.toNat ≠ sh.chars) :
    opFromDig sh t = raise .invalidLength 0 := by
  simp [opFromDig, h]

theorem opFromDig_character {sh : Shape} {t : StrOperand} (h : t.slen.toNat = sh.chars)
    (hb : ¬ Over .num t.cells) : opFromDig sh t = raise .invalidCharacter (firstBad .num t.cells) := by
  simp [opFromDig, h, checkMember_raise hb]

theorem opFromDig_spelling {sh : Shape} (l : BitVec 8) (ds : List Digit) (hl : l.toNat = sh.chars) :
    opFromDig sh { slen := l, cells := ds.map Alphabet.num.symbol } =
      if 2 ^ sh.fieldBits ≤ digitsValue ds then raise .fieldOverflow 0
      else .ok { ra := BitVec.ofNat 64 (digitsValue ds) } := by
  simp only [opFromDig, hl, checkMember_ok (spelling_symbols _ _)]
  simp only [ne_eq, not_true, if_false, pure_eq_ok, ok_bind, b32Parse_spelling, orInvalidCharacter_some]
  split <;> simp

/-! ### XLITF and XLITR -/

theorem opXlitF_length {t : StrOperand} (h : 26 < t.slen.toNat) : opXlitF t = raise .invalidLength 0 := by
  simp [opXlitF, h]

theorem opXlitF_character {t : StrOperand} (h : t.slen.toNat ≤ 26) (hb : ¬ Over .num t.cells) :
    opXlitF t = raise .invalidCharacter (firstBad .num t.cells) := by
  simp [opXlitF, Nat.not_lt.mpr h, opXlit_raise hb]

theorem opXlitF_spelling (l : BitVec 8) (ds : List Digit) (h : l.toNat ≤ 26) :
    opXlitF { slen := l, cells := ds.map Alphabet.num.symbol } = .ok { r := ds.map Alphabet.crock.symbol } := by
  simp [opXlitF, Nat.not_lt.mpr h]

theorem opXlitR_length {t : StrOperand} (h : 26 < t.slen.toNat) : opXlitR t = raise .invalidLength 0 := by
  simp [opXlitR, h]

theorem opXlitR_character {t : StrOperand} (h : t.slen.toNat ≤ 26) (hb : ¬ Over .crock t.cells) :
    opXlitR t = raise .invalidCharacter (firstBad .crock t.cells) := by
  simp [opXlitR, Nat.not_lt.mpr h, opXlit_raise hb]

theorem opXlitR_spelling (l : BitVec 8) (ds : List Digit) (h : l.toNat ≤ 26) :
    opXlitR { slen := l, cells := ds.map Alphabet.crock.symbol } = .ok { r := ds.map Alphabet.num.symbol } := by
  simp [opXlitR, Nat.not_lt.mpr h]

/-! ### TODIG and ENCODE -/

theorem opToDig_overflow {sh : Shape} {v : Word} (h : 2 ^ sh.fieldBits ≤ v.toNat) :
    opToDig sh v = raise .fieldOverflow 0 := if_pos h

theorem opToDig_digits {sh : Shape} {v : Word} (h : v.toNat < 2 ^ sh.fieldBits) :
    opToDig sh v = .ok { r := (fixedDigits sh.chars v.toNat).map Alphabet.num.symbol } := by
  rw [opToDig, if_neg (Nat.not_le.mpr h), padL_b32Str]

theorem opEncode_digits (h l : Word) :
    opEncode h l = .ok { r := (fixedDigits 10 (splitFields h l).time.toNat ++
      fixedDigits 8 (splitFields h l).random1.toNat ++
      fixedDigits 8 (splitFields h l).random2.toNat).map Alphabet.crock.symbol } := by
  simp [opEncode, padL_b32Str]

end Sys2Proof.Machine
end

