-- ==== Sys2Proof/Laws/Ports.lean ====
section
/-! SUPPORT. The cells in the port words (30_encoding.md R61, R62). -/

namespace Sys2Proof

theorem cellsNat_digit (cells : List Byte) (i : Nat) : cellsNat cells / 256 ^ i % 256 = (cells.getD i 0).toNat := by
  induction cells generalizing i with
  | nil => simp [cellsNat]
  | cons c cs ih =>
    have hc : c.toNat < 256 := c.isLt
    cases i with
    | zero => simp [cellsNat]; omega
    | succ i =>
      have h : cellsNat (c :: cs) / 256 = cellsNat cs := by simp only [cellsNat]; omega
      rw [pow_succ, Nat.mul_comm, ← Nat.div_div_eq_div_mul, h, ih]
      simp

/-- Cell `i` of the packed cells is the `i`-th cell, 0 where there is none. -/
theorem packCells_cell (cells : List Byte) {i : Nat} (hi : i < 26) :
    (packCells cells).extractLsb' (8 * i) 8 = cells.getD i 0 := by
  apply BitVec.eq_of_toNat_eq
  rw [← cellsNat_digit cells i]
  simp only [packCells, BitVec.extractLsb'_toNat, BitVec.toNat_ofNat, Nat.shiftRight_eq_div_pow]
  have h256 : (256 : Nat) ^ i = 2 ^ (8 * i) := by
    rw [pow_mul]
    norm_num
  have hsplit : (2 : Nat) ^ 208 = 2 ^ (8 * i) * (2 ^ 8 * 2 ^ (200 - 8 * i)) := by
    rw [← pow_add, ← pow_add]
    congr 1
    omega
  rw [h256, hsplit, Nat.mod_mul_right_div_self, Nat.mod_mul_right_mod]
  norm_num

/-- A field placed at bit `lo` of a port word, read at the bits of its own place. -/
theorem field_bit {w : Nat} (x : BitVec w) (lo j : Nat) :
    (x.setWidth 416 <<< lo).getLsbD j = (decide (j < 416) && !decide (j < lo) && x.getLsbD (j - lo)) := by
  rw [BitVec.getLsbD_shiftLeft, BitVec.getLsbD_setWidth]
  by_cases h : j < 416
  · have h' : j - lo < 416 := by omega
    simp [h, h']
  · simp [h]

/-- Every bit of a request that the encoder puts together, by the field it stands in. -/
theorem packReq_getLsbD (op : BitVec 4) (wsel : BitVec 1) (slen : BitVec 8) (a b c : Word) (cells : List Byte)
    {j : Nat} (hj : j < 416) :
    (packReq op wsel slen a b c cells).getLsbD j =
      if j < 4 then op.getLsbD j
      else if j < 5 then wsel.getLsbD (j - 4)
      else if j < 8 then false
      else if j < 16 then slen.getLsbD (j - 8)
      else if j < 80 then a.getLsbD (j - 16)
      else if j < 144 then b.getLsbD (j - 80)
      else if j < 208 then c.getLsbD (j - 144)
      else (packCells cells).getLsbD (j - 208) := by
  have hop : (op.setWidth 416).getLsbD j = op.getLsbD j := by simp [hj]
  simp only [packReq, BitVec.getLsbD_or, field_bit, hop, hj, decide_true, Bool.true_and]
  split_ifs <;> simp (disch := omega) only [BitVec.getLsbD_of_ge, decide_eq_true, decide_eq_false, Bool.not_true,
    Bool.not_false, Bool.false_and, Bool.true_and, Bool.or_false, Bool.false_or]

/-- Every bit of a response's port picture, by the field it stands in. -/
theorem packRsp_getLsbD (status : BitVec 3) (epos : BitVec 5) (res : Machine.Result) {j : Nat} (hj : j < 416) :
    (Machine.packRsp status epos res).getLsbD j =
      if j < 3 then status.getLsbD j
      else if j < 8 then epos.getLsbD (j - 3)
      else if j < 16 then (BitVec.ofNat 8 res.r.length).getLsbD (j - 8)
      else if j < 80 then res.ra.getLsbD (j - 16)
      else if j < 144 then res.rb.getLsbD (j - 80)
      else if j < 208 then res.rc.getLsbD (j - 144)
      else (packCells res.r).getLsbD (j - 208) := by
  have hst : (status.setWidth 416).getLsbD j = status.getLsbD j := by simp [hj]
  simp only [Machine.packRsp, BitVec.getLsbD_or, field_bit, hst, hj, decide_true, Bool.true_and]
  split_ifs <;> simp (disch := omega) only [BitVec.getLsbD_of_ge, decide_eq_true, decide_eq_false, Bool.not_true,
    Bool.not_false, Bool.false_and, Bool.true_and, Bool.or_false, Bool.false_or]

end Sys2Proof
end

