-- ==== Sys2Proof/Laws/PerInstr.lean ====
section
/-! SUPPORT. Facts about the instructions as syntax, one lemma per constructor. -/

namespace Sys2Proof.Laws.OpField

/-- The encoded request of an instruction carries its operation code in REQ[3:0] and 0 in REQ[7:5]
(30_encoding.md R61, R65). -/
def Statement (i : Instr) : Prop :=
  Req.op (encodeReq i) = opcode i ∧ Req.rsv (encodeReq i) = 0

theorem packReq_low (op : BitVec 4) (wsel : BitVec 1) (slen : BitVec 8) (a b c : Word) (cells : List Byte) :
    Req.op (packReq op wsel slen a b c cells) = op ∧ Req.rsv (packReq op wsel slen a b c cells) = 0 := by
  constructor
  · apply BitVec.eq_of_getLsbD_eq
    intro i hi
    rw [Req.op, BitVec.getLsbD_extractLsb', packReq_getLsbD _ _ _ _ _ _ _ (by omega)]
    simp [hi]
  · apply BitVec.eq_of_getLsbD_eq
    intro i hi
    have h4 : ¬ 5 + i < 4 := by omega
    have h8 : 5 + i < 8 := by omega
    rw [Req.rsv, BitVec.getLsbD_extractLsb', packReq_getLsbD _ _ _ _ _ _ _ (by omega)]
    simp [h4, h8]

theorem encode (high low : Word) : Statement (.encode high low) := packReq_low ..

theorem decode (text : StrOperand) : Statement (.decode text) := packReq_low ..

theorem split (high low : Word) : Statement (.split high low) := packReq_low ..

theorem join (time random1 random2 : Word) : Statement (.join time random1 random2) := packReq_low ..

theorem toDig (shape : Shape) (value : Word) : Statement (.toDig shape value) := packReq_low ..

theorem fromDig (shape : Shape) (digits : StrOperand) : Statement (.fromDig shape digits) := packReq_low ..

theorem xlitF (str : StrOperand) : Statement (.xlitF str) := packReq_low ..

theorem xlitR (str : StrOperand) : Statement (.xlitR str) := packReq_low ..

end Sys2Proof.Laws.OpField
end

