-- ==== Sys2Proof/Laws/Step.lean ====
section
/-! SUPPORT. What a step can do. -/

namespace Sys2Proof.Machine

/-- The operation an instruction stands for; its meaning is `complete` of it. -/
def opOf : Instr → Op Result
  | .encode high low => opEncode high low
  | .decode text => opDecode text
  | .split high low => opSplit high low
  | .join time random1 random2 => opJoin time random1 random2
  | .toDig shape value => opToDig shape value
  | .fromDig shape digits => opFromDig shape digits
  | .xlitF str => opXlitF str
  | .xlitR str => opXlitR str

/-- Every meaning produces the response of its operation and nothing else. -/
theorem exec_eq (i : Instr) (s : State) : exec i s = .next (s.answer (finish (opOf i))) := by
  cases i <;> rfl

@[simp] theorem exec_eq_answer_iff {i : Instr} {s : State} {r : Response} :
    exec i s = .next (s.answer r) ↔ finish (opOf i) = r := by
  simp [exec_eq]

/-- The response of a request, whatever the state. -/
def responseOf (q : ReqWord) : Response :=
  match decodeReq q with
  | .ok i => finish (opOf i)
  | .error _ => illegalResponse

theorem acceptRequest_eq (q : ReqWord) (s : State) : acceptRequest q s = .next (s.answer (responseOf q)) := by
  unfold acceptRequest responseOf
  cases decodeReq q with
  | ok i => exact exec_eq i s
  | error e => rfl

@[simp] theorem step_present (s : State) (q : ReqWord) : step (s.present q) = .next (s.answer (responseOf q)) :=
  acceptRequest_eq q s

@[simp] theorem step_idle (p d : List Response) :
    step { events := [], pending := p, delivered := d } = .next { events := [], pending := p, delivered := d } := rfl

@[simp] theorem step_request (q : ReqWord) (es : List HostEvent) (p d : List Response) :
    step { events := .request q :: es, pending := p, delivered := d } =
      .next { events := es, pending := p ++ [responseOf q], delivered := d } :=
  acceptRequest_eq q _

@[simp] theorem step_take (es : List HostEvent) (p d : List Response) :
    step { events := .take :: es, pending := p, delivered := d } =
      .next { events := es, pending := p.tail, delivered := d ++ p.head?.toList } := by
  cases p <;> simp [step, handleEvent, State.deliver]

@[simp] theorem step_reset (es : List HostEvent) (p d : List Response) :
    step { events := .reset :: es, pending := p, delivered := d } =
      .next { events := es, pending := [], delivered := d } := rfl

/-- Everything a step can do: it always answers a next state, which is the waiting state, one more pending response,
one delivery, or the pending responses dropped. -/
theorem step_cases {s t : State} (h : step s = .next t) :
    (s.events = [] ∧ t = s) ∨
    (∃ q es, s.events = .request q :: es ∧
      t = { events := es, pending := s.pending ++ [responseOf q], delivered := s.delivered }) ∨
    (∃ es, s.events = .take :: es ∧
      t = { events := es, pending := s.pending.tail, delivered := s.delivered ++ s.pending.head?.toList }) ∨
    (∃ es, s.events = .reset :: es ∧ t = { events := es, pending := [], delivered := s.delivered }) := by
  obtain ⟨es, p, d⟩ := s
  cases es with
  | nil => simp_all
  | cons e es => cases e <;> simp_all

theorem step_next (s : State) : ∃ t, step s = .next t := by
  obtain ⟨es, p, d⟩ := s
  cases es with
  | nil => simp
  | cons e es => cases e <;> simp

/-- A run of a machine goes on from the state its first step leads to. -/
theorem run_succ_of (M : Host.Core) {k : Nat} {s t : M.State} (h : M.step s = .next t) :
    M.run (k + 1) s = M.run k t := by
  rw [Host.Core.run, h]

theorem run_succ {k : Nat} {s t : State} (h : step s = .next t) : core.run (k + 1) s = core.run k t :=
  run_succ_of core h

end Sys2Proof.Machine
end

