-- ==== Sys2Proof/Tests/Slice0.lean ====
section
/-! SUPPORT. Tests of the model against the spec's printed words and vectors (95_test_vectors.md), and a witness for
the hypotheses of every statement that has some. Expected values are the spec's, never the model's own. -/

set_option exponentiation.threshold 600
set_option maxRecDepth 4000

namespace Sys2Proof.Tests

open Sys2Proof Sys2Proof.Machine

/-! ### Helpers -/

/-- The codes of characters (30_encoding.md R64). -/
def codes (cs : List Char) : List Byte := cs.map fun c => BitVec.ofNat 8 c.toNat

/-- The string operand of characters. -/
def strOf (cs : List Char) : StrOperand := StrOperand.ofString (codes cs)

/-- From reset, the request `q` is answered with the response word `w` and nothing else. -/
def answers (q : ReqWord) (w : RspWord) : Bool :=
  match step (State.reset.present q) with
  | .next t => t.events == [] && t.delivered == [] && t.pending.map Response.toRsp == [w]
  | .fault _ => false
  | .refused _ => false

/-- The outcome is the next state `t`. -/
def nextIs (o : Host.Outcome State Fault Refusal) (t : State) : Bool :=
  match o with
  | .next u => u == t
  | .fault _ => false
  | .refused _ => false

/-- From reset, the instruction adds the response `r` and nothing else. -/
def gives (i : Instr) (r : Response) : Bool := nextIs (exec i State.reset) (State.reset.answer r)

/-! ### Well-formedness: ill-formed terms are refused (30_encoding.md R63) -/

theorem test_wf_refuses_decode_with_a_missing_cell :
    (Instr.decode { slen := 26, cells := List.replicate 25 0x30 }).wf = false := by decide

theorem test_wf_refuses_fromDig_with_a_cell_too_many :
    (Instr.fromDig .R { slen := 8, cells := List.replicate 9 0x30 }).wf = false := by decide

theorem test_wf_refuses_xlitF_with_cells_beyond_the_26 :
    (Instr.xlitF { slen := 27, cells := List.replicate 27 0x30 }).wf = false := by decide

theorem test_wf_refuses_xlitR_with_cells_of_an_empty_string :
    (Instr.xlitR { slen := 0, cells := [0x30] }).wf = false := by decide

theorem test_wf_accepts_the_longest_string :
    (Instr.xlitR { slen := 255, cells := List.replicate 26 0xFF }).wf = true := by decide

/-! ### Decoding: words written out from 30_encoding.md R61 and R65 and 95_test_vectors.md -/

/-- 95_test_vectors.md V6: ENCODE ignores `wsel`, `slen`, `c` and the cells. -/
theorem test_decode_encode :
    decodeReq 0xFFFFFFFFFFFFFFFFFFFFFFFFFFFFFFFFFFFFFFFFFFFFFFFFFFFFFFFFFFFFFFFFFFFFFEDCBA98765432100123456789ABCDEFFF11
      = .ok (.encode 0x0123456789ABCDEF 0xFEDCBA9876543210) := by decide

/-- 95_test_vectors.md P3 step 1: DECODE with `slen` 25. -/
theorem test_decode_decode :
    decodeReq 0x00303030303030303030303030303030303030303030303030300000000000000000000000000000000000000000000000001902
      = .ok (.decode { slen := 25, cells := List.replicate 25 0x30 }) := by decide

/-- 95_test_vectors.md V8: SPLIT ignores `wsel`; the operands are those of P2 step 1. -/
theorem test_decode_split :
    decodeReq 0x00000000000000000000000000000000000000000000000000000000000000000000FEDCBA98765432100123456789ABCDEF0013
      = .ok (.split 0x0123456789ABCDEF 0xFEDCBA9876543210) := by decide

/-- JOIN with `a` 1, `b` 2, `c` 3 at the bits of 30_encoding.md R61. -/
theorem test_decode_join :
    decodeReq 0x00000000000000000000000000000000000000000000000000000000000000000003000000000000000200000000000000010004
      = .ok (.join 1 2 3) := by decide

/-- 95_test_vectors.md P2 step 6: REQ[7:0] = 0x15 is TODIG of shape R. -/
theorem test_decode_toDig :
    decodeReq 0x00000000000000000000000000000000000000000000000000000000000000000000000000000000000000000098765432100015
      = .ok (.toDig .R 0x9876543210) := by decide

/-- 95_test_vectors.md P4 step 2: FROMDIG of shape T. -/
theorem test_decode_fromDig :
    decodeReq 0x000000000000000000000000000000006A65646C33766F6131300000000000000000000000000000000000000000000000000A06
      = .ok (.fromDig .T (strOf ['0', '1', 'a', 'o', 'v', '3', 'l', 'd', 'e', 'j'])) := by decide

/-- 95_test_vectors.md P2 step 5. -/
theorem test_decode_xlitF :
    decodeReq 0x00000000000000000000000000000000000071356E74766E6E700000000000000000000000000000000000000000000000000807
      = .ok (.xlitF (strOf ['p', 'n', 'n', 'v', 't', 'n', '5', 'q'])) := by decide

/-- 95_test_vectors.md P4 step 1. -/
theorem test_decode_xlitR :
    decodeReq 0x000000000000000000000000000000004B45444E335A524131300000000000000000000000000000000000000000000000000A08
      = .ok (.xlitR (strOf ['0', '1', 'A', 'R', 'Z', '3', 'N', 'D', 'E', 'K'])) := by decide

/-- 95_test_vectors.md V1, V3: reserved `op` values, rejected by name. -/
theorem test_decode_rejects_reserved_op :
    decodeReq 0 = .error (.reservedOp 0) ∧ decodeReq 0x9 = .error (.reservedOp 0x9) ∧
      decodeReq 0x1F = .error (.reservedOp 0xF) := by decide

/-- 95_test_vectors.md V2, V4, V5: `rsv` not 0, whatever `op` is. -/
theorem test_decode_rejects_reserved_field :
    decodeReq (BitVec.allOnes 416) = .error (.reservedField 7) ∧ decodeReq 0x21 = .error (.reservedField 1) ∧
      decodeReq 0x42 = .error (.reservedField 2) := by decide

/-- The encoder writes the word printed for P4 step 7 (95_test_vectors.md). -/
theorem test_encodeReq_join :
    encodeReq (.join 0x01563E3AB5D3 0xD6764C61EF 0xB99302BD5B) =
      0x0000000000000000000000000000000000000000000000000000000000B99302BD5B000000D6764C61EF000001563E3AB5D30004 := by
  decide

/-- The table's eight bits of a row select its instruction with operands of zeros (opcode_table.json). -/
theorem test_decodeTableWord :
    decodeTableWord 8 0x04 = some (.join 0 0 0) ∧ decodeTableWord 8 0x16 = some (.fromDig .R { slen := 0, cells := [] }) ∧
      decodeTableWord 8 0x104 = some (.join 0 0 0) ∧ decodeTableWord 8 0x09 = none := by decide

/-- The placed request is the next one accepted: TODIG.T 0 (95_test_vectors.md P-T1). -/
theorem test_withFetchWord_runs_the_word :
    nextIs (step (State.reset.withFetchWord 8 0x05)) (State.reset.answer (.ok { r := List.replicate 10 0x30 }))
      = true := by decide

/-! ### One step per instruction: the printed response words -/

/-- 95_test_vectors.md P1 step 1. -/
theorem test_step_encode_P1 :
    answers 0x00000000000000000000000000000000000000000000000000000000000000000000FEDCBA98765432100123456789ABCDEF0001
      0x474743383556314B543551585A515153424432465032443431300000000000000000000000000000000000000000000000001A00
      = true := by decide

/-- 95_test_vectors.md P5 step 1: a padded field and every randomness bit set. -/
theorem test_step_encode_P5 :
    gives (.encode 0x0000FFFFFFFEFFFF 0xFFFFFFFFFFFFFFFF)
      (.ok { r := codes (['0', '0', '0', '3', 'Z', 'Z', 'Z', 'Z', 'Z', 'Y'] ++
        List.replicate 16 'Z') }) = true := by decide

/-- 95_test_vectors.md P1 step 2. -/
theorem test_step_decode_P1 :
    answers 0x474743383556314B543551585A515153424432465032443431300000000000000000000000000000000000000000000000001A02
      0x00000000000000000000000000000000000000000000000000000000000000000000FEDCBA98765432100123456789ABCDEF0000
      = true := by decide

/-- 95_test_vectors.md P3 step 3: the character check comes before the width check. -/
theorem test_step_decode_P3 :
    answers 0x55303030303030303030303030303030303030303030303030380000000000000000000000000000000000000000000000001A02
      0xCA = true := by decide

/-- 95_test_vectors.md P2 step 1. -/
theorem test_step_split_P2 :
    answers 0x00000000000000000000000000000000000000000000000000000000000000000000FEDCBA98765432100123456789ABCDEF0003
      0x00000000000000000000000000000000000000000000000000000000009876543210000000CDEFFEDCBA00000123456789AB0000
      = true := by decide

/-- 95_test_vectors.md P-S3: no sign extension. -/
theorem test_step_split_PS3 :
    gives (.split 0x8000000000000000 0)
      (.ok { ra := 0x800000000000 }) = true := by decide

/-- 95_test_vectors.md P4 step 7. -/
theorem test_step_join_P4 :
    answers 0x0000000000000000000000000000000000000000000000000000000000B99302BD5B000000D6764C61EF000001563E3AB5D30004
      0x000000000000000000000000000000000000000000000000000000000000000000004C61EFB99302BD5B01563E3AB5D3D6760000
      = true := by decide

/-- 95_test_vectors.md P-J16: the first operand that is too wide. -/
theorem test_step_join_PJ16 :
    gives (.join 0 0x10000000000 0x10000000000)
      (.err { kind := .fieldOverflow, epos := 1 }) = true := by decide

/-- 95_test_vectors.md P2 step 4. -/
theorem test_step_toDig_P2 :
    answers 0x000000000000000000000000000000000000000000000000000000000000000000000000000000000000000000CDEFFEDCBA0015
      0x00000000000000000000000000000000000071356E74766E6E700000000000000000000000000000000000000000000000000800
      = true := by decide

/-- 95_test_vectors.md P-T11 and P-T14: the largest value of the field, and 2^48. -/
theorem test_step_toDig_PT11_PT14 :
    gives (.toDig .T 0xFFFFFFFFFFFF)
      (.ok { r := codes ('7' :: List.replicate 9 'v') }) = true ∧
    gives (.toDig .T 0x1000000000000)
      (.err { kind := .fieldOverflow, epos := 0 }) = true := by decide

/-- 95_test_vectors.md V7: cells beyond `slen` are ignored. -/
theorem test_step_fromDig_V7 :
    answers 0x55555555555555555555555555555555626432666D32643431300000000000000000000000000000000000000000000000000A06
      0x00000000000000000000000000000000000000000000000000000000000000000000000000000000000000000123456789AB0000
      = true := by decide

/-- 95_test_vectors.md P-F17: the character check comes before the width check. -/
theorem test_step_fromDig_PF17 :
    gives (.fromDig .T (strOf ['8', 'w', '0', '0', '0', '0', '0', '0', '0', '0']))
      (.err { kind := .invalidCharacter, epos := 1 }) = true := by decide

/-- 95_test_vectors.md P2 step 3. -/
theorem test_step_xlitF_P2 :
    answers 0x00000000000000000000000000000000626432666D32643431300000000000000000000000000000000000000000000000000A07
      0x00000000000000000000000000000000424432465032443431300000000000000000000000000000000000000000000000000A00
      = true := by decide

/-- 95_test_vectors.md P-X6, as 30_encoding.md R73 writes it. -/
theorem test_step_xlitF_PX6 :
    showTransaction (.xlitF (strOf ['i', 'l', 'o', 'u'])) (finish (opXlitF (strOf ['i', 'l', 'o', 'u']))) =
      ['X', 'L', 'I', 'T', 'F', ' ', '"', 'i', 'l', 'o', 'u', '"', ' ', '-', '>', ' ',
       '"', 'J', 'N', 'R', 'Y', '"'] := by decide

/-- 95_test_vectors.md P4 step 3. -/
theorem test_step_xlitR_P4 :
    answers 0x00000000000000000000000000000000000046465252345653540000000000000000000000000000000000000000000000000808
      0x00000000000000000000000000000000000066666F6F347270710000000000000000000000000000000000000000000000000800
      = true := by decide

/-- 95_test_vectors.md P-Y13. -/
theorem test_step_xlitR_PY13 :
    gives (.xlitR (strOf ['0', '0', '0', '0', 'U']))
      (.err { kind := .invalidCharacter, epos := 4 }) = true := by decide

/-- 95_test_vectors.md V1, V4 and P3 steps 7 and 8: reserved encodings. -/
theorem test_step_illegal :
    answers 0 0x4 = true ∧
    answers 0x00000000000000000000000000000000000000000000000000000000000000000000FEDCBA98765432100123456789ABCDEF0009
      0x4 = true ∧
    answers 0x00000000000000000000000000000000000000000000000000000000000000000000FEDCBA98765432100123456789ABCDEF0021
      0x4 = true := by decide

/-! ### Witnesses: concrete inputs that meet the hypotheses of the statements, each clause at a boundary -/

/-- 26 characters `0`, then the last one replaced. -/
def zerosThen (c : Byte) : List Byte := List.replicate 25 0x30 ++ [c]

theorem witness_RequestFieldsStandAtTheirBits : (List.replicate 26 (0xFF : Byte)).length ≤ 26 ∧ 25 < 26 := by decide

theorem witness_DecodeOfEncodeGivesBackTheInstruction :
    (Instr.encode 0 0).wf = true ∧ (Instr.decode { slen := 255, cells := List.replicate 26 0xFF }).wf = true ∧
    (Instr.fromDig .R { slen := 0, cells := [] }).wf = true := by decide

theorem witness_DecodedInstructionsAreWellFormed :
    decodeReq 0xFF08 = .ok (.xlitR { slen := 255, cells := List.replicate 26 0 }) := by decide

theorem witness_OperationCodesSelectTheirOperations :
    ∀ op : BitVec 4, (op.setWidth 416 : ReqWord).extractLsb' 5 3 = 0 ∧
      (op.setWidth 416 : ReqWord).extractLsb' 0 4 = op := by decide

theorem witness_ReservedEncodingsAnswerIllegalOp :
    (0 : ReqWord).extractLsb' 0 4 = 0 ∧ 9 ≤ ((9 : ReqWord).extractLsb' 0 4).toNat ∧
    (0x21 : ReqWord).extractLsb' 5 3 ≠ 0 := by decide

/-- The words of 95_test_vectors.md V7 and of the same transaction with zeros in the ignored cells. -/
theorem witness_UnreadRequestFieldsHaveNoEffect :
    ReadsAgree 0x55555555555555555555555555555555626432666D32643431300000000000000000000000000000000000000000000000000A06
      0x00000000000000000000000000000000626432666D32643431300000000000000000000000000000000000000000000000000A06 ∧
    ReadsAgree 0x13 0xFF13 := by
  refine ⟨⟨by decide, by decide, ?_⟩, ⟨by decide, by decide, ?_⟩⟩
  · exact show _ = _ ∧ _ = _ ∧ SameCells _ _ _ from ⟨by decide, by decide, by unfold SameCells; decide⟩
  · exact show _ = _ ∧ _ = _ from ⟨by decide, by decide⟩

theorem witness_StepRunsTheDecodedInstruction :
    (State.reset.present 0x3).events = .request 0x3 :: [] ∧ decodeReq 0x3 = .ok (.split 0 0) ∧
    decodeReq 0x9 = .error (.reservedOp 9) := by decide

theorem witness_ResetLeavesNoResponsePending :
    ({ events := [.reset], pending := [.ok {}], delivered := [] } : State).events = .reset :: [] ∧
    ∃ r : Response, step (State.reset.present 0x1) = .next (State.reset.answer r) := ⟨rfl, _, step_present _ _⟩

theorem witness_ResponsePortIsHeldUntilDelivery :
    let s : State := { events := [.request 0x3], pending := [.ok { ra := 1 }], delivered := [] }
    let u : State := { events := [.take], pending := [.ok { ra := 1 }], delivered := [] }
    s.rspValid = true ∧ (∃ t, step s = .next t) ∧ s.rspReady = false ∧ s.events.head? ≠ some .reset ∧
    u.rspValid = true ∧ (∃ t, step u = .next t) ∧ u.rspReady = true :=
  ⟨rfl, step_next _, rfl, by decide, rfl, step_next _, rfl⟩

theorem witness_EveryOperationOnlyAppendsItsResponse :
    (∃ t, exec (.encode 0 0) State.reset = .next t) ∧ ∃ t, exec (.decode { slen := 0, cells := [] }) State.reset = .next t :=
  ⟨⟨_, exec_eq _ _⟩, ⟨_, exec_eq _ _⟩⟩

theorem witness_ResponseFieldsStandAtTheirBits :
    (Response.ok { r := List.replicate 26 0x5A }).results.r.length ≤ 26 ∧
    (Response.ok { r := List.replicate 26 0x5A }).status = 0 := by decide

theorem witness_ErrorsCarryOnlyStatusAndPosition :
    nextIs (step (State.reset.present 0)) (State.reset.answer (.err { kind := .illegalOp, epos := 0 })) = true ∧
    (Response.err { kind := .illegalOp, epos := 0 }).status ≠ 0 := by decide

theorem witness_UnwrittenResponseFieldsAreZero :
    gives (.join 0 0 0x10000000000) (.err { kind := .fieldOverflow, epos := 2 }) = true ∧
    (Response.err { kind := .fieldOverflow, epos := 2 }).status ≠ 0 ∧
    (Response.ok { r := List.replicate 25 0x5A }).results.r.length ≤ 25 := by decide

theorem witness_StatusCodesAreThoseOfTheOperation :
    nextIs (step (State.reset.present 0x2)) (State.reset.answer (.err { kind := .invalidLength, epos := 0 })) = true := by
  decide

theorem witness_ErrorsFollowTheOrderOfPrecedence :
    decodeReq 0x9 = .error (.reservedOp 9) ∧ decodeReq 0x2 = .ok (.decode { slen := 0, cells := [] }) ∧
    LengthCause (.decode { slen := 25, cells := List.replicate 25 0x55 }) ∧
    LengthCause (.fromDig .T { slen := 8, cells := List.replicate 8 0x30 }) ∧
    LengthCause (.fromDig .R { slen := 10, cells := List.replicate 10 0x30 }) ∧
    LengthCause (.xlitF { slen := 27, cells := List.replicate 26 0x30 }) ∧
    LengthCause (.xlitR { slen := 255, cells := List.replicate 26 0x30 }) ∧
    ¬ LengthCause (.decode { slen := 26, cells := zerosThen 0x55 }) ∧
    CharacterCause (.decode { slen := 26, cells := zerosThen 0x55 }) 25 ∧
    CharacterCause (.xlitF { slen := 1, cells := [0x41] }) 0 ∧
    (∀ p, ¬ CharacterCause (.join 0x1000000000000 0x10000000000 0) p) ∧
    OverflowCause (.join 0x1000000000000 0x10000000000 0) 0 ∧
    OverflowCause (.join 0xFFFFFFFFFFFF 0x10000000000 0) 1 ∧
    OverflowCause (.join 0xFFFFFFFFFFFF 0xFFFFFFFFFF 0x10000000000) 2 ∧
    OverflowCause (.decode { slen := 26, cells := 0x38 :: List.replicate 25 0x30 }) 0 ∧
    OverflowCause (.toDig .R 0x10000000000) 0 ∧
    OverflowCause (.fromDig .T { slen := 10, cells := 0x38 :: List.replicate 9 0x30 }) 0 ∧
    (∀ p, ¬ OverflowCause (.xlitR { slen := 0, cells := [] }) p) ∧
    ¬ LengthCause (.xlitR { slen := 0, cells := [] }) ∧
    (∀ p, ¬ CharacterCause (.xlitR { slen := 0, cells := [] }) p) := by
  simp only [LengthCause, CharacterCause, OverflowCause, LowestForeign, List.length_nil, Nat.not_lt_zero, false_and,
    not_false_eq_true, implies_true, and_true, true_and, IsEmpty.forall_iff]
  decide

theorem witness_StepKeepsResponsesLegal :
    let s : State := {
      events := [.take]
      pending := [.ok { r := List.replicate 26 0x5A }]
      delivered := [.err { kind := .invalidCharacter, epos := 25 }] }
    s.Legal ∧ ∃ t, step s = .next t := by
  refine ⟨?_, step_next _⟩
  intro r hr
  simp only [List.cons_append, List.nil_append, List.mem_cons, List.not_mem_nil, or_false] at hr
  rcases hr with rfl | rfl
  · exact ⟨by decide, Or.inr (by unfold Over; decide)⟩
  · exact show _ ≤ _ by decide

theorem witness_EveryAcceptedRequestIsAnsweredInOrder :
    ∀ e ∈ [HostEvent.request 0x1, HostEvent.take, HostEvent.request 0], e ≠ .reset := by decide

theorem witness_InstancesDoNotDisturbEachOther :
    (0 : Nat) ≠ 1 ∧ [State.reset, State.reset.present 0x1][1]? = some (State.reset.present 0x1) := by decide

theorem witness_JoinPutsTheFieldsTogether :
    2 ^ 48 ≤ (0x1000000000000 : Word).toNat ∧ (0xFFFFFFFFFFFF : Word).toNat < 2 ^ 48 ∧
    2 ^ 40 ≤ (0x10000000000 : Word).toNat ∧ (0xFFFFFFFFFF : Word).toNat < 2 ^ 40 := by decide

theorem witness_JoinIsWiring :
    (0xFFFFFFFFFFFF : Word).toNat < 2 ^ 48 ∧ (0xFFFFFFFFFF : Word).toNat < 2 ^ 40 ∧ (0 : Word).toNat < 2 ^ 40 := by
  decide

theorem witness_SplitAndJoinUndoEachOther :
    (0xFFFFFFFFFFFF : Word).toNat < 2 ^ 48 ∧ (0xFFFFFFFFFF : Word).toNat < 2 ^ 40 := by decide

theorem witness_UnpaddedDigitsAreTheShortestOnes :
    0 < 1 ∧ (2 ^ 64 - 1 : Nat) < 2 ^ 64 ∧ 31 < 32 ^ 1 ∧ Over .num [0x31, 0x30] ∧
    1 ≤ ([0x31, 0x30] : List Byte).length ∧ ([0x31, 0x30] : List Byte).head? ≠ some 0x30 ∧
    fieldValue .num [0x31, 0x30] = 32 := by
  unfold Over; decide

theorem witness_PaddingIsOnTheLeftAndKeepsTheValue :
    ([] : List Byte).length ≤ 8 ∧ (List.replicate 10 (0x76 : Byte)).length ≤ 10 ∧ (2 ^ 48 - 1 : Nat) < 2 ^ 48 ∧
    (2 ^ 40 - 1 : Nat) < 2 ^ 40 := by decide

theorem witness_ParseIsThePositionalSum : Over .num [] ∧ Over .num [0x30, 0x76] ∧ ¬ Over .num [0x30, 0x77] := by
  unfold Over; decide

theorem witness_ToDigGivesThePaddedDigits :
    2 ^ 48 ≤ (0x1000000000000 : Word).toNat ∧ (0xFFFFFFFFFFFF : Word).toNat < 2 ^ 48 ∧
    2 ^ 40 ≤ (0x10000000000 : Word).toNat ∧ (0xFFFFFFFFFF : Word).toNat < 2 ^ 40 := by decide

theorem witness_ToDigIsSlicing :
    (0xFFFFFFFFFFFF : Word).toNat < 2 ^ Shape.fieldBits .T ∧ (0xFFFFFFFFFF : Word).toNat < 2 ^ Shape.fieldBits .R := by
  decide

/-- 95_test_vectors.md P-F8, P-F9, P-F15, P-F26. -/
theorem witness_FromDigGivesTheValue :
    (strOf ['0', '0', '0', '0', '0', '0', '0']).wf = true ∧ (strOf ['0', '0', '0', '0', '0', '0', '0']).slen.toNat ≠ 8 ∧
    (strOf (List.replicate 9 '0' ++ ['V'])).slen.toNat = 10 ∧
    LowestForeign .num (strOf (List.replicate 9 '0' ++ ['V'])).cells 9 ∧
    Over .num (strOf ('8' :: List.replicate 9 '0')).cells ∧
    fieldValue .num (strOf ('8' :: List.replicate 9 '0')).cells = 2 ^ 48 ∧
    Over .num (strOf ('7' :: List.replicate 9 'v')).cells ∧
    fieldValue .num (strOf ('7' :: List.replicate 9 'v')).cells = 2 ^ 48 - 1 ∧
    (strOf (List.replicate 8 'v')).slen.toNat = 8 ∧ fieldValue .num (strOf (List.replicate 8 'v')).cells < 2 ^ 40 := by
  unfold LowestForeign Over; decide

theorem witness_FirstDigitDecidesTheOverflow :
    (List.replicate 8 (0x5A : Byte)).length = 8 ∧ (0x37 :: List.replicate 9 (0x5A : Byte)).length = 10 ∧
    Over .crock (0x37 :: List.replicate 9 0x5A) ∧ Over .crock (0x38 :: List.replicate 9 0x30) ∧
    Over .num (0x38 :: List.replicate 9 0x30) := by
  unfold Over; decide

theorem witness_ToDigAndFromDigUndoEachOther :
    (0xFFFFFFFFFFFF : Word).toNat < 2 ^ Shape.fieldBits .T ∧ (List.replicate 8 (0x76 : Byte)).length = Shape.chars .R ∧
    Over .num (List.replicate 8 0x76) ∧ fieldValue .num (List.replicate 8 0x76) < 2 ^ Shape.fieldBits .R := by
  unfold Over; decide

theorem witness_InverseLookUpsInvertTheTables :
    Alphabet.num.index 0x76 = some 31 ∧ Alphabet.crock.index 0x49 = none ∧ 0x80 ≤ (0x80 : Byte).toNat := by decide

theorem witness_XlitKeepsLengthAndIndex :
    xlit [] .num .crock = some [] ∧ xlit [0x76] .num .crock = some [0x5A] ∧ ([0x76] : List Byte)[0]? = some 0x76 := by
  decide

theorem witness_XlitFGivesTheCrockString :
    (StrOperand.mk 27 (List.replicate 26 0x30)).wf = true ∧ 26 < (27 : BitVec 8).toNat ∧
    (StrOperand.mk 26 (zerosThen 0x77)).wf = true ∧ LowestForeign .num (zerosThen 0x77) 25 ∧
    Over .num (zerosThen 0x76) ∧ (StrOperand.mk 0 []).wf = true ∧ Over .num [] := by
  unfold LowestForeign Over; decide

theorem witness_XlitRGivesTheNumString :
    (StrOperand.mk 27 (List.replicate 26 0x30)).wf = true ∧ 26 < (27 : BitVec 8).toNat ∧
    (StrOperand.mk 26 (zerosThen 0x55)).wf = true ∧ LowestForeign .crock (zerosThen 0x55) 25 ∧
    Over .crock (zerosThen 0x5A) ∧ (StrOperand.mk 0 []).wf = true ∧ Over .crock [] := by
  unfold LowestForeign Over; decide

theorem witness_TransliterationsUndoEachOtherAndKeepTheValue :
    (zerosThen 0x76).length ≤ 26 ∧ Over .num (zerosThen 0x76) ∧ Over .crock (zerosThen 0x5A) := by
  unfold Over; decide

theorem witness_DigitStringsCompareAsTheirValues :
    (0xFFFFFFFFFFFF : Word).toNat < 2 ^ Shape.fieldBits .T ∧ (0xFFFFFFFFFF : Word).toNat < 2 ^ Shape.fieldBits .R ∧
    ([0x30] : List Byte).length = ([0x76] : List Byte).length ∧ xlit [0x30] .num .crock = some [0x30] ∧
    xlit [0x76] .num .crock = some [0x5A] := by decide

theorem witness_DecodeChecksAndReassembles :
    (StrOperand.mk 25 (List.replicate 25 0x55)).wf = true ∧ (StrOperand.mk 26 (zerosThen 0x55)).wf = true ∧
    (26 : BitVec 8).toNat = 26 ∧ LowestForeign .crock (zerosThen 0x55) 25 ∧
    Over .crock (0x38 :: List.replicate 25 0x30) ∧
    fieldValue .crock (substr (0x38 :: List.replicate 25 0x30) 0 10) = 2 ^ 48 ∧
    fieldValue .crock (substr (0x37 :: List.replicate 25 0x5A) 0 10) = 2 ^ 48 - 1 := by
  unfold LowestForeign Over; decide

theorem witness_DecodeEqualsTheFusedDatapath :
    (StrOperand.mk 26 (zerosThen 0x5A)).wf = true ∧ (StrOperand.mk 255 (List.replicate 26 0x80)).wf = true := by decide

theorem witness_accepted : Accepted (0x37 :: List.replicate 25 0x5A) := by unfold Accepted Over; decide

/-- For the statements about accepted strings: DecodeAcceptsExactlyTheAcceptedStrings, ValueAndTextRoundTrips,
CodecIsComposedOfTheUnits. -/
theorem witness_DecodeAcceptsExactlyTheAcceptedStrings :
    Accepted (List.replicate 26 0x30) ∧ ¬ Accepted (0x38 :: List.replicate 25 0x30) ∧ ¬ Accepted [] := by
  unfold Accepted Over; decide

theorem witness_ValueAndTextRoundTrips : Accepted (0x37 :: List.replicate 25 0x5A) := witness_accepted

theorem witness_CodecIsComposedOfTheUnits : Accepted (0x37 :: List.replicate 25 0x5A) := witness_accepted

theorem witness_NoCaseIsFolded :
    (StrOperand.mk 26 (zerosThen 0x61)).wf = true ∧ (zerosThen 0x61)[25]? = some 0x61 ∧
    (∀ k < 25, Alphabet.crock.isSymbol ((zerosThen 0x61).getD k 0) = true) ∧
    (StrOperand.mk 8 [0x56, 0x56, 0x56, 0x56, 0x56, 0x56, 0x56, 0x56]).wf = true ∧
    0x41 ≤ (0x56 : Byte).toNat ∧ (0x56 : Byte).toNat ≤ 0x5A ∧ (8 : BitVec 8).toNat = Shape.chars .R := by decide

theorem witness_ListedTextsAreRejected :
    (StrOperand.mk 27 (List.replicate 26 0x41)).slen = 27 ∧ 27 ∈ [0, 25, 27] := by decide

theorem witness_EncodeEqualsTheFusedDatapath : 0 < 26 ∧ 25 < 26 := by decide

theorem witness_EncodeAnswers26CrockSymbols : 0 < 26 ∧ 25 < 26 := by decide

theorem witness_EncodedTextsBeginWithZeroToSeven : 1 ≤ 25 ∧ 25 < 26 := by decide

end Sys2Proof.Tests
end

section
/-! The statements of 00_scope.md, settled. -/

namespace Sys2Proof.Proofs

open Sys2Proof.Machine

/-- Settles O12: the one response is `responseOf q`, which is defined from the request without a state
(00_scope.md R12), and `step_present` says that a step from any state adds exactly that. -/
theorem responseDependsOnTheRequestOnly : Obligations.ResponseDependsOnTheRequestOnly := by
  unfold Obligations.ResponseDependsOnTheRequestOnly
  intro q
  exact ⟨responseOf q, fun s => step_present s q⟩

end Sys2Proof.Proofs
end

section
/-! The statements of 10_state.md, settled. -/

namespace Sys2Proof.Proofs

open Sys2Proof.Machine

/-- A digit always lies inside the table, so the default in `Alphabet.symbol` is never read. -/
theorem table_getElem?_digit (A : Alphabet) (d : Digit) : A.table[d.toNat]? = some (A.symbol d) := by
  rw [symbol_eq_getElem]
  exact List.getElem?_eq_getElem _

/-- Settles O38: the two tables are closed lists, compared with the printed ones by evaluation (10_state.md R22, R23);
that `symbol` reads them at every digit is `table_getElem?_digit`. -/
theorem tablesHoldThePrintedAlphabets : Obligations.TablesHoldThePrintedAlphabets := by
  unfold Obligations.TablesHoldThePrintedAlphabets
  refine ⟨?num, ?crock, table_getElem?_digit⟩
  case num => decide
  case crock => decide

end Sys2Proof.Proofs
end

section
/-! The statements of 30_encoding.md, settled. -/

namespace Sys2Proof.Proofs

open Sys2Proof.Machine

/-! ### Fields of the port words (R61, R62) -/

/-- A field of a port word is the value whose bits stand at its place. -/
theorem extractLsb'_eq_of_getLsbD {n w : Nat} {q : BitVec n} {lo : Nat} {x : BitVec w}
    (h : ∀ j < w, q.getLsbD (lo + j) = x.getLsbD j) : q.extractLsb' lo w = x :=
  BitVec.eq_of_getLsbD_eq fun j hj => by simp [hj, h j hj]

theorem packReq_cell (op : BitVec 4) (wsel : BitVec 1) (slen : BitVec 8) (a b c : Word) (cells : List Byte)
    {i : Nat} (hi : i < 26) :
    (packReq op wsel slen a b c cells).extractLsb' (208 + 8 * i) 8 = cells.getD i 0 := by
  rw [← packCells_cell cells hi]
  refine extractLsb'_eq_of_getLsbD fun j hj => ?_
  have hsub : 208 + 8 * i + j - 208 = 8 * i + j := by omega
  rw [packReq_getLsbD _ _ _ _ _ _ _ (by omega), BitVec.getLsbD_extractLsb']
  simp (disch := omega) only [if_neg, hsub, hj, decide_true, Bool.true_and]

theorem packRsp_cell (status : BitVec 3) (epos : BitVec 5) (res : Result) {i : Nat} (hi : i < 26) :
    (packRsp status epos res).extractLsb' (208 + 8 * i) 8 = res.r.getD i 0 := by
  rw [← packCells_cell res.r hi]
  refine extractLsb'_eq_of_getLsbD fun j hj => ?_
  have hsub : 208 + 8 * i + j - 208 = 8 * i + j := by omega
  rw [packRsp_getLsbD _ _ _ (by omega), BitVec.getLsbD_extractLsb']
  simp (disch := omega) only [if_neg, hsub, hj, decide_true, Bool.true_and]

/-- The fields of a response word below its cells. -/
theorem packRsp_fields (status : BitVec 3) (epos : BitVec 5) (res : Result) :
    (packRsp status epos res).extractLsb' 0 3 = status ∧
    (packRsp status epos res).extractLsb' 3 5 = epos ∧
    (packRsp status epos res).extractLsb' 8 8 = BitVec.ofNat 8 res.r.length ∧
    (packRsp status epos res).extractLsb' 16 64 = res.ra ∧
    (packRsp status epos res).extractLsb' 80 64 = res.rb ∧
    (packRsp status epos res).extractLsb' 144 64 = res.rc := by
  refine ⟨?status, ?epos, ?rlen, ?ra, ?rb, ?rc⟩
  case status | epos | rlen | ra | rb | rc =>
    refine extractLsb'_eq_of_getLsbD fun j hj => ?_
    rw [packRsp_getLsbD _ _ _ (by omega)]
    simp (disch := omega) only [if_pos, if_neg, Nat.zero_add, Nat.add_sub_cancel_left]

/-- Settles O2: the encoder's word is read bit by bit through `packReq_getLsbD`, field by field and cell by cell; the
decoder's field reads are those slices by definition. -/
theorem requestFieldsStandAtTheirBits : Obligations.RequestFieldsStandAtTheirBits := by
  unfold Obligations.RequestFieldsStandAtTheirBits
  constructor
  · intro op wsel slen a b c cells _
    obtain ⟨hop, hrsv⟩ := Laws.OpField.packReq_low op wsel slen a b c cells
    refine ⟨hop, ?wsel, hrsv, ?slen, ?opA, ?opB, ?opC, fun i hi => packReq_cell _ _ _ _ _ _ _ hi⟩
    case wsel | slen | opA | opB | opC =>
      refine extractLsb'_eq_of_getLsbD fun j hj => ?_
      rw [packReq_getLsbD _ _ _ _ _ _ _ (by omega)]
      simp (disch := omega) only [if_pos, if_neg, Nat.add_sub_cancel_left]
  · exact fun q => ⟨rfl, rfl, rfl, rfl, rfl, rfl, rfl, fun _ _ => rfl⟩

theorem epos_of_status_zero {r : Response} (h : r.status = 0) : r.epos = 0 := by
  cases r with
  | ok res => rfl
  | err e =>
    have hcode : ∀ kind : ErrorKind, kind.code ≠ 0 := by
      intro kind
      cases kind <;> decide
    exact absurd h (hcode e.kind)

/-- Above `epos` the word of an error has no bit (R70). -/
theorem toRsp_err (e : OpError) : (Response.err e).toRsp = (e.epos ++ e.kind.code).setWidth 416 := by
  have hcells : packCells [] = 0 := rfl
  refine BitVec.eq_of_getLsbD_eq fun j hj => ?_
  simp only [Response.toRsp, packRsp_getLsbD _ _ _ hj, BitVec.getLsbD_setWidth, hj, decide_true, Bool.true_and,
    BitVec.getLsbD_append, Response.status, Response.epos, Response.results, List.length_nil, hcells,
    BitVec.ofNat_eq_ofNat, BitVec.getLsbD_zero]
  by_cases h3 : j < 3
  · simp [h3]
  · by_cases h8 : j < 8
    · simp [h3, h8]
    · simp (disch := omega) [h3, h8, BitVec.getLsbD_of_ge]

/-- Settles O14: the port word is `packRsp` of the response's fields, so `packRsp_fields` and `packRsp_cell` read it;
26 cells are few enough for `rlen` to hold their number. -/
theorem responseFieldsStandAtTheirBits : Obligations.ResponseFieldsStandAtTheirBits := by
  unfold Obligations.ResponseFieldsStandAtTheirBits
  constructor
  · intro r hlen
    obtain ⟨hstatus, hepos, hrlen, hra, hrb, hrc⟩ := packRsp_fields r.status r.epos r.results
    refine ⟨hstatus, hepos, ?rlen, hra, hrb, hrc, fun i hi => packRsp_cell _ _ _ hi, epos_of_status_zero⟩
    case rlen =>
      have hlt : r.results.r.length < 2 ^ 8 := by omega
      rw [Response.toRsp, hrlen, BitVec.toNat_ofNat, Nat.mod_eq_of_lt hlt]
  · exact fun w => ⟨rfl, rfl, rfl, rfl, rfl, rfl, fun _ _ => rfl⟩

/-! ### The operation code map (R65, R66, R68) -/

section
variable {q : ReqWord}

theorem decodeReq_of_rsv_ne_zero (h : Req.rsv q ≠ 0) : decodeReq q = .error (.reservedField (Req.rsv q)) :=
  if_pos h

variable (hrsv : Req.rsv q = 0)
include hrsv

theorem decodeReq_encode (hop : (Req.op q).toNat = 1) : decodeReq q = .ok (.encode (Req.a q) (Req.b q)) := by
  simp only [decodeReq, hrsv, hop, ne_eq, not_true, if_false]

theorem decodeReq_decode (hop : (Req.op q).toNat = 2) : decodeReq q = .ok (.decode (Req.str q)) := by
  simp only [decodeReq, hrsv, hop, ne_eq, not_true, if_false]

theorem decodeReq_split (hop : (Req.op q).toNat = 3) : decodeReq q = .ok (.split (Req.a q) (Req.b q)) := by
  simp only [decodeReq, hrsv, hop, ne_eq, not_true, if_false]

theorem decodeReq_join (hop : (Req.op q).toNat = 4) :
    decodeReq q = .ok (.join (Req.a q) (Req.b q) (Req.c q)) := by
  simp only [decodeReq, hrsv, hop, ne_eq, not_true, if_false]

theorem decodeReq_toDig (hop : (Req.op q).toNat = 5) :
    decodeReq q = .ok (.toDig (Shape.ofWsel (Req.wsel q)) (Req.a q)) := by
  simp only [decodeReq, hrsv, hop, ne_eq, not_true, if_false]

theorem decodeReq_fromDig (hop : (Req.op q).toNat = 6) :
    decodeReq q = .ok (.fromDig (Shape.ofWsel (Req.wsel q)) (Req.str q)) := by
  simp only [decodeReq, hrsv, hop, ne_eq, not_true, if_false]

theorem decodeReq_xlitF (hop : (Req.op q).toNat = 7) : decodeReq q = .ok (.xlitF (Req.str q)) := by
  simp only [decodeReq, hrsv, hop, ne_eq, not_true, if_false]

theorem decodeReq_xlitR (hop : (Req.op q).toNat = 8) : decodeReq q = .ok (.xlitR (Req.str q)) := by
  simp only [decodeReq, hrsv, hop, ne_eq, not_true, if_false]

theorem decodeReq_of_reserved_op (hop : (Req.op q).toNat = 0 ∨ 9 ≤ (Req.op q).toNat) :
    decodeReq q = .error (.reservedOp (Req.op q)) := by
  simp only [decodeReq, hrsv, ne_eq, not_true, if_false]
  split
  case h_9 => rfl
  all_goals omega

end

/-- REQ[4] is the shape select (R61, R66). -/
theorem ofWsel_wsel (q : ReqWord) : Shape.ofWsel (Req.wsel q) = if q.getLsbD 4 then .R else .T := by
  have hbit : q.getLsbD 4 = (Req.wsel q).getLsbD 0 := by simp [Req.wsel]
  have hofWsel : ∀ w : BitVec 1, Shape.ofWsel w = if w.getLsbD 0 then .R else .T := by decide
  rw [hbit, hofWsel]

/-- Settles O5: one equation of the decoder for each operation code, with `wsel` read as the shape. -/
theorem operationCodesSelectTheirOperations : Obligations.OperationCodesSelectTheirOperations := by
  unfold Obligations.OperationCodesSelectTheirOperations
  intro q hrsv op shape
  have hshape : Shape.ofWsel (Req.wsel q) = shape := ofWsel_wsel q
  refine ⟨decodeReq_encode hrsv, decodeReq_decode hrsv, decodeReq_split hrsv, decodeReq_join hrsv,
    hshape ▸ decodeReq_toDig hrsv, hshape ▸ decodeReq_fromDig hrsv, decodeReq_xlitF hrsv, decodeReq_xlitR hrsv,
    ?reserved, rfl, rfl, rfl, rfl⟩
  case reserved =>
    intro hop i h
    rw [decodeReq_of_reserved_op hrsv hop] at h
    cases h

theorem responseOf_of_error {q : ReqWord} {e : DecodeReject} (h : decodeReq q = .error e) :
    responseOf q = .err { kind := .illegalOp, epos := 0 } := by
  rw [responseOf, h, illegalResponse_eq]

theorem responseOf_of_ok {q : ReqWord} {i : Instr} (h : decodeReq q = .ok i) :
    responseOf q = finish (opOf i) := by
  rw [responseOf, h]

theorem responseOf_congr {q q' : ReqWord} {i i' : Instr} (h : decodeReq q = .ok i) (h' : decodeReq q' = .ok i')
    (hop : opOf i = opOf i') : responseOf q = responseOf q' := by
  rw [responseOf_of_ok h, responseOf_of_ok h', hop]

/-- Settles O6: in each of the three cases the decoder rejects, and a rejected request is answered IllegalOp. -/
theorem reservedEncodingsAnswerIllegalOp : Obligations.ReservedEncodingsAnswerIllegalOp := by
  unfold Obligations.ReservedEncodingsAnswerIllegalOp
  refine ⟨fun q s h => ?reserved, fun q s => ⟨responseOf q, step_present s q⟩⟩
  case reserved =>
    have hrejected : ∃ e, decodeReq q = .error e := by
      by_cases hrsv : Req.rsv q = 0
      · refine ⟨_, decodeReq_of_reserved_op hrsv ?_⟩
        rcases h with hzero | hhigh | hne
        · exact .inl (congrArg BitVec.toNat hzero)
        · exact .inr hhigh
        · exact absurd hrsv hne
      · exact ⟨_, decodeReq_of_rsv_ne_zero hrsv⟩
    obtain ⟨e, he⟩ := hrejected
    have hword : (Response.err { kind := .illegalOp, epos := 0 }).toRsp = 4 := by
      simp [toRsp_err, ErrorKind.code]
    exact ⟨_, by rw [step_present, responseOf_of_error he], rfl, rfl, rfl, hword⟩

/-! ### Fields that are not read (R67, R69) -/

/-- A string operand is made of `slen` and the cells below it that exist. -/
theorem str_eq_of_sameCells {q q' : ReqWord} (hlen : Req.slen q = Req.slen q')
    (hcells : SameCells (min (Req.slen q).toNat 26) q q') : Req.str q = Req.str q' := by
  have hmap : (List.range (min (Req.slen q).toNat 26)).map (Req.cell q) =
      (List.range (min (Req.slen q).toNat 26)).map (Req.cell q') :=
    List.map_congr_left fun i hi => hcells i (List.mem_range.mp hi)
  rw [Req.str, Req.str, ← hlen]
  exact congrArg _ hmap

theorem chars_le_strCells (sh : Shape) : sh.chars ≤ 26 := by
  cases sh <;> decide

/-- FROMDIG reads no cell at or beyond W: with another length it ends before it reads any cell. -/
theorem opFromDig_eq_of_sameCells {q q' : ReqWord} (sh : Shape) (hlen : Req.slen q = Req.slen q')
    (hcells : SameCells (min (Req.slen q).toNat sh.chars) q q') :
    opFromDig sh (Req.str q) = opFromDig sh (Req.str q') := by
  by_cases h : (Req.slen q).toNat = sh.chars
  · have hle : (Req.slen q).toNat ≤ 26 := h ▸ chars_le_strCells sh
    rw [← h, min_self] at hcells
    rw [str_eq_of_sameCells hlen (by rwa [min_eq_left hle])]
  · have h' : (Req.slen q').toNat ≠ sh.chars := hlen ▸ h
    rw [opFromDig_length h, opFromDig_length h']

/-- The response is determined by the fields that the selected operation reads: where it reads the string, FROMDIG
apart, the two requests even decode to one instruction. -/
theorem responseOf_eq_of_readsAgree {q q' : ReqWord} (h : ReadsAgree q q') : responseOf q = responseOf q' := by
  obtain ⟨hop, hrsv, hreads⟩ := h
  by_cases hz : Req.rsv q = 0
  · have hz' : Req.rsv q' = 0 := hrsv ▸ hz
    have hop' {n : Nat} (hn : (Req.op q).toNat = n) : (Req.op q').toNat = n := hop ▸ hn
    split at hreads
    case h_1 hn =>
      obtain ⟨ha, hb⟩ := hreads
      exact responseOf_congr (decodeReq_encode hz hn) (decodeReq_encode hz' (hop' hn)) (congrArg₂ opEncode ha hb)
    case h_2 hn =>
      obtain ⟨hlen, hcells⟩ := hreads
      exact responseOf_congr (decodeReq_decode hz hn) (decodeReq_decode hz' (hop' hn))
        (congrArg opDecode (str_eq_of_sameCells hlen hcells))
    case h_3 hn =>
      obtain ⟨ha, hb⟩ := hreads
      exact responseOf_congr (decodeReq_split hz hn) (decodeReq_split hz' (hop' hn)) (congrArg₂ opSplit ha hb)
    case h_4 hn =>
      obtain ⟨ha, hb, hc⟩ := hreads
      exact responseOf_congr (decodeReq_join hz hn) (decodeReq_join hz' (hop' hn)) (by rw [ha, hb, hc])
    case h_5 hn =>
      obtain ⟨hwsel, ha⟩ := hreads
      exact responseOf_congr (decodeReq_toDig hz hn) (decodeReq_toDig hz' (hop' hn)) (by rw [hwsel, ha])
    case h_6 hn =>
      obtain ⟨hwsel, hlen, hcells⟩ := hreads
      exact responseOf_congr (decodeReq_fromDig hz hn) (decodeReq_fromDig hz' (hop' hn))
        (hwsel ▸ opFromDig_eq_of_sameCells _ hlen hcells)
    case h_7 hn =>
      obtain ⟨hlen, hcells⟩ := hreads
      exact responseOf_congr (decodeReq_xlitF hz hn) (decodeReq_xlitF hz' (hop' hn))
        (congrArg opXlitF (str_eq_of_sameCells hlen hcells))
    case h_8 hn =>
      obtain ⟨hlen, hcells⟩ := hreads
      exact responseOf_congr (decodeReq_xlitR hz hn) (decodeReq_xlitR hz' (hop' hn))
        (congrArg opXlitR (str_eq_of_sameCells hlen hcells))
    case h_9 h1 h2 h3 h4 h5 h6 h7 h8 =>
      have hreserved : (Req.op q).toNat = 0 ∨ 9 ≤ (Req.op q).toNat := by
        rw [imp_false] at h1 h2 h3 h4 h5 h6 h7 h8
        omega
      rw [responseOf_of_error (decodeReq_of_reserved_op hz hreserved),
        responseOf_of_error (decodeReq_of_reserved_op hz' (hop ▸ hreserved))]
  · rw [responseOf_of_error (decodeReq_of_rsv_ne_zero hz),
      responseOf_of_error (decodeReq_of_rsv_ne_zero (hrsv ▸ hz))]

/-- Settles O7: a step from any state adds `responseOf` of the request, and that agrees on the two requests. -/
theorem unreadRequestFieldsHaveNoEffect : Obligations.UnreadRequestFieldsHaveNoEffect := by
  unfold Obligations.UnreadRequestFieldsHaveNoEffect
  intro q q' s h
  rw [step_present, step_present, responseOf_eq_of_readsAgree h]

/-! ### Fields that are not written (R71) -/

section
variable {A : Alphabet} {op : StrOperand → Op Result} {out : List Digit → Op Result} {LengthOk : Nat → Prop}
  {P : Result → Prop}

/-- What holds of the empty record and of every result on the spelling of a digit sequence holds of the results of
a string operation: it ends with its length error, with its character error, or on a spelling. -/
theorem results_of_string_operation
    (hlength : ∀ t, ¬ LengthOk t.slen.toNat → op t = raise .invalidLength 0)
    (hcharacter : ∀ t, LengthOk t.slen.toNat → ¬ Over A t.cells →
      op t = raise .invalidCharacter (firstBad A t.cells))
    (hspelling : ∀ l ds, LengthOk l.toNat → op { slen := l, cells := ds.map A.symbol } = out ds)
    (hempty : P {}) (hout : ∀ ds, P (finish (out ds)).results) (t : StrOperand) :
    P (finish (op t)).results := by
  obtain ⟨l, cells⟩ := t
  by_cases hl : LengthOk l.toNat
  · by_cases hover : Over A cells
    · obtain ⟨ds, rfl⟩ := exists_spelling_of_over hover
      rw [hspelling l ds hl]
      exact hout ds
    · rw [hcharacter ⟨l, cells⟩ hl hover]
      exact hempty
  · rw [hlength ⟨l, cells⟩ hl]
    exact hempty

end

/-- The value results are 0: what R71 asks of an operation that writes the string only. -/
def NoValues (res : Result) : Prop := res.ra = 0 ∧ res.rb = 0 ∧ res.rc = 0

/-- `rc` and the string are 0: what R71 asks of an operation that writes the two halves only. -/
def OnlyHalves (res : Result) : Prop := res.rc = 0 ∧ res.r = []

/-- Only `ra` is written, zero-extended from `n` bits. -/
def OnlyField (n : Nat) (res : Result) : Prop := res.ra.toNat < 2 ^ n ∧ res.rb = 0 ∧ res.rc = 0 ∧ res.r = []

theorem noValues_of_string (text : List Byte) : NoValues { r := text } := ⟨rfl, rfl, rfl⟩

theorem onlyField_of_lt {n v : Nat} (h : v < 2 ^ n) : OnlyField n { ra := BitVec.ofNat 64 v } := by
  refine ⟨lt_of_le_of_lt ?_ h, rfl, rfl, rfl⟩
  rw [BitVec.toNat_ofNat]
  exact Nat.mod_le _ _

theorem opEncode_results (high low : Word) : NoValues (finish (opEncode high low)).results := by
  rw [opEncode_digits]
  exact noValues_of_string _

theorem opDecode_results (t : StrOperand) : OnlyHalves (finish (opDecode t)).results := by
  refine results_of_string_operation (LengthOk := (· = 26)) (fun _ => opDecode_length) (fun _ => opDecode_character)
    opDecode_spelling ⟨rfl, rfl⟩ (fun ds => ?_) t
  split <;> exact ⟨rfl, rfl⟩

theorem opSplit_results (high low : Word) :
    (finish (opSplit high low)).results.r = [] ∧ (finish (opSplit high low)).results.ra.toNat < 2 ^ 48 ∧
    (finish (opSplit high low)).results.rb.toNat < 2 ^ 40 ∧ (finish (opSplit high low)).results.rc.toNat < 2 ^ 40 := by
  have hext {n : Nat} (hn : n ≤ 64) (x : BitVec n) : (x.setWidth 64).toNat < 2 ^ n := by
    rw [BitVec.toNat_setWidth_of_le hn]
    exact x.isLt
  exact ⟨rfl, hext (by decide) _, hext (by decide) _, hext (by decide) _⟩

theorem opJoin_results (time random1 random2 : Word) : OnlyHalves (finish (opJoin time random1 random2)).results := by
  unfold opJoin
  split_ifs <;> exact ⟨rfl, rfl⟩

theorem opToDig_results (sh : Shape) (v : Word) : NoValues (finish (opToDig sh v)).results := by
  unfold opToDig
  split <;> exact noValues_of_string _

theorem opFromDig_results (sh : Shape) (t : StrOperand) :
    OnlyField sh.fieldBits (finish (opFromDig sh t)).results := by
  have hempty : OnlyField sh.fieldBits {} := onlyField_of_lt (v := 0) (Nat.two_pow_pos _)
  refine results_of_string_operation (LengthOk := (· = sh.chars)) (fun _ => opFromDig_length)
    (fun _ => opFromDig_character) opFromDig_spelling hempty (fun ds => ?_) t
  split
  case isTrue => exact hempty
  case isFalse hfits => exact onlyField_of_lt (Nat.lt_of_not_le hfits)

theorem opXlitF_results (t : StrOperand) : NoValues (finish (opXlitF t)).results :=
  results_of_string_operation (LengthOk := (· ≤ 26)) (fun _ h => opXlitF_length (Nat.lt_of_not_le h))
    (fun _ => opXlitF_character) opXlitF_spelling (noValues_of_string []) (fun _ => noValues_of_string _) t

theorem opXlitR_results (t : StrOperand) : NoValues (finish (opXlitR t)).results :=
  results_of_string_operation (LengthOk := (· ≤ 26)) (fun _ h => opXlitR_length (Nat.lt_of_not_le h))
    (fun _ => opXlitR_character) opXlitR_spelling (noValues_of_string []) (fun _ => noValues_of_string _) t

theorem exists_err_of_status_ne_zero {r : Response} (h : r.status ≠ 0) : ∃ e, r = .err e := by
  cases r with
  | ok res => exact absurd rfl h
  | err e => exact ⟨e, rfl⟩

/-- Settles O16: what each operation leaves 0 in its results, then the cells of the port word beyond the string, then
the port word of an error. -/
theorem unwrittenResponseFieldsAreZero : Obligations.UnwrittenResponseFieldsAreZero := by
  unfold Obligations.UnwrittenResponseFieldsAreZero
  refine ⟨fun i s r h => ⟨?operation, ?error⟩, fun r i hi hlen => ?cell, fun r h => ?word⟩
  case operation =>
    obtain rfl := exec_eq_answer_iff.mp h
    cases i with
    | encode high low => exact opEncode_results high low
    | decode text => exact opDecode_results text
    | split high low => exact opSplit_results high low
    | join time random1 random2 => exact opJoin_results time random1 random2
    | toDig shape value => exact opToDig_results shape value
    | fromDig shape digits => exact opFromDig_results shape digits
    | xlitF str => exact opXlitF_results str
    | xlitR str => exact opXlitR_results str
  case error =>
    intro hstatus
    obtain ⟨e, rfl⟩ := exists_err_of_status_ne_zero hstatus
    rfl
  case cell =>
    rw [Response.toRsp, packRsp_cell _ _ _ hi, List.getD_eq_default _ _ hlen]
  case word =>
    obtain ⟨e, rfl⟩ := exists_err_of_status_ne_zero h
    rw [toRsp_err]
    refine extractLsb'_eq_of_getLsbD fun j hj => ?_
    simp (disch := omega) [BitVec.getLsbD_of_ge]

end Sys2Proof.Proofs
end

section
/-! The statements of 40_splitter.md, settled. -/

namespace Sys2Proof.Proofs

open Sys2Proof.Machine

/-! ### SPLIT (R90, R91) -/

/-- Settles O24: the operation of SPLIT is the rule's formulas and has no raising branch, and `exec_eq` says that
every state answers it. -/
theorem splitGivesTheThreeFields : Obligations.SplitGivesTheThreeFields := by
  unfold Obligations.SplitGivesTheThreeFields
  intro high low s
  exact exec_eq (.split high low) s

/-- A mask of `n` ones keeps the remainder modulo `2 ^ n`. -/
theorem toNat_and_mask {n : Nat} (hn : n ≤ 64) (x : Word) :
    (x &&& BitVec.ofNat 64 (2 ^ n - 1)).toNat = x.toNat % 2 ^ n := by
  have hle : 2 ^ n ≤ 2 ^ 64 := Nat.pow_le_pow_right (by decide) hn
  have hpos := Nat.two_pow_pos n
  rw [BitVec.toNat_and, BitVec.toNat_ofNat, Nat.mod_eq_of_lt (a := 2 ^ n - 1) (by omega),
    Nat.and_two_pow_sub_one_eq_mod]

theorem splitFields_time_toNat (high low : Word) : (splitFields high low).time.toNat = high.toNat / 2 ^ 16 := by
  have hhigh := high.isLt
  simp only [splitFields, BitVec.toNat_setWidth, BitVec.toNat_ushiftRight, Nat.shiftRight_eq_div_pow]
  omega

/-- The parts that the rule's `or` joins have no set bit in common, so it adds them (R94). -/
theorem splitFields_random1_toNat (high low : Word) :
    (splitFields high low).random1.toNat = high.toNat % 2 ^ 16 * 2 ^ 24 + low.toNat / 2 ^ 40 := by
  have hmask : (high &&& 0xFFFF).toNat = high.toNat % 2 ^ 16 := toNat_and_mask (n := 16) (by decide) high
  have hlow : low.toNat / 2 ^ 40 < 2 ^ 24 := by
    have := low.isLt
    omega
  have hshift : (high.toNat % 2 ^ 16) <<< 24 % 2 ^ 64 = (high.toNat % 2 ^ 16) <<< 24 := by
    rw [Nat.shiftLeft_eq]
    omega
  simp only [splitFields, BitVec.toNat_setWidth, BitVec.toNat_or, BitVec.toNat_shiftLeft,
    BitVec.toNat_ushiftRight, hmask, hshift, Nat.shiftRight_eq_div_pow]
  rw [← Nat.shiftLeft_add_eq_or_of_lt hlow, Nat.shiftLeft_eq]
  omega

theorem splitFields_random2_toNat (high low : Word) : (splitFields high low).random2.toNat = low.toNat % 2 ^ 40 := by
  have hmask : (low &&& 0xFFFFFFFFFF).toNat = low.toNat % 2 ^ 40 := toNat_and_mask (n := 40) (by decide) low
  rw [splitFields, BitVec.toNat_setWidth, hmask, Nat.mod_mod]

/-- Settles O26: the witnesses are the fields of `splitFields`, each below its width (`opSplit_results`). Their values
are quotients and remainders of the halves, which add up to V. -/
theorem fieldsMakeUpTheIdentifier : Obligations.FieldsMakeUpTheIdentifier := by
  unfold Obligations.FieldsMakeUpTheIdentifier
  intro high low s
  obtain ⟨-, ht, hr1, hr2⟩ := opSplit_results high low
  refine ⟨_, _, _, exec_eq (.split high low) s, ht, hr1, hr2, ?value⟩
  case value =>
    rw [BitVec.toNat_setWidth_of_le (by decide), BitVec.toNat_setWidth_of_le (by decide),
      BitVec.toNat_setWidth_of_le (by decide), splitFields_time_toNat, splitFields_random1_toNat,
      splitFields_random2_toNat]
    omega

/-! ### JOIN (R92) -/

section
variable {t r1 r2 : Word}

theorem opJoin_time_overflow (ht : 2 ^ 48 ≤ t.toNat) : opJoin t r1 r2 = raise .fieldOverflow 0 := if_pos ht

variable (ht : t.toNat < 2 ^ 48)
include ht

theorem opJoin_random1_overflow (hr1 : 2 ^ 40 ≤ r1.toNat) : opJoin t r1 r2 = raise .fieldOverflow 1 := by
  rw [opJoin, if_neg (Nat.not_le_of_lt ht)]
  exact if_pos hr1

variable (hr1 : r1.toNat < 2 ^ 40)
include hr1

theorem opJoin_random2_overflow (hr2 : 2 ^ 40 ≤ r2.toNat) : opJoin t r1 r2 = raise .fieldOverflow 2 := by
  rw [opJoin, if_neg (Nat.not_le_of_lt ht), if_neg (Nat.not_le_of_lt hr1)]
  exact if_pos hr2

theorem opJoin_legal (hr2 : r2.toNat < 2 ^ 40) :
    opJoin t r1 r2 = .ok { ra := joinHigh t r1, rb := joinLow r1 r2 } := by
  rw [opJoin, if_neg (Nat.not_le_of_lt ht), if_neg (Nat.not_le_of_lt hr1)]
  exact if_neg (Nat.not_le_of_lt hr2)

end

/-- Settles O27: one equation of the operation for each outcome of its three range checks; `joinHigh` and `joinLow`
are the rule's formulas by definition. -/
theorem joinPutsTheFieldsTogether : Obligations.JoinPutsTheFieldsTogether := by
  unfold Obligations.JoinPutsTheFieldsTogether
  intro t r1 r2 s
  simp only [exec_eq_answer_iff, opOf]
  refine ⟨fun ht => ?time, fun ht hr1 => ?random1, fun ht hr1 hr2 => ?random2, fun ht hr1 hr2 => ?legal⟩
  case time => exact congrArg finish (opJoin_time_overflow ht)
  case random1 => exact congrArg finish (opJoin_random1_overflow ht hr1)
  case random2 => exact congrArg finish (opJoin_random2_overflow ht hr1 hr2)
  case legal => exact congrArg finish (opJoin_legal ht hr1 hr2)

end Sys2Proof.Proofs
end

section
/-! The statements of 41_radix_engine.md, settled. -/

namespace Sys2Proof.Proofs

open Sys2Proof.Machine

/-! ### The unpadded digits (R110) -/

/-- Without a leading zero digit, no digit string is longer than its value needs. -/
theorem length_le_of_digitsValue_lt {ds : List Digit} {n : Nat} (h0 : ds.head? ≠ some 0)
    (h : digitsValue ds < 32 ^ n) : ds.length ≤ n := by
  cases ds with
  | nil => exact Nat.zero_le n
  | cons d ds =>
    have hd : 1 ≤ d.toNat := Nat.one_le_iff_ne_zero.mpr fun hz => h0 (congrArg some (BitVec.eq_of_toNat_eq hz))
    have hlt : 32 ^ ds.length < 32 ^ n := calc
      32 ^ ds.length ≤ d.toNat * 32 ^ ds.length := Nat.le_mul_of_pos_left _ hd
      _ ≤ digitsValue (d :: ds) := by rw [digitsValue_cons]; exact Nat.le_add_right _ _
      _ < 32 ^ n := h
    exact (Nat.pow_lt_pow_iff_right (by decide)).mp hlt

/-- Digit strings without a leading zero digit are determined by their value, whatever their lengths: neither can be
the longer one. -/
theorem digitsValue_inj_of_head_ne_zero {ds es : List Digit} (hds : ds.head? ≠ some 0) (hes : es.head? ≠ some 0)
    (hv : digitsValue ds = digitsValue es) : ds = es := by
  have hle : ds.length ≤ es.length := length_le_of_digitsValue_lt hds (hv ▸ digitsValue_lt es)
  have hge : es.length ≤ ds.length := length_le_of_digitsValue_lt hes (hv ▸ digitsValue_lt ds)
  exact digitsValue_inj (Nat.le_antisymm hle hge) hv

theorem b32Digits_head_ne_zero {fuel v : Nat} (hv : 0 < v) (h : v < 32 ^ fuel) :
    (b32Digits fuel v).head? ≠ some 0 := by
  induction fuel generalizing v with
  | zero => simp [b32Digits]
  | succ fuel ih =>
    unfold b32Digits
    split
    case isTrue hlt =>
      intro hhead
      have hzero : (BitVec.ofNat 5 v).toNat = 0 := congrArg BitVec.toNat (Option.some.inj hhead)
      rw [BitVec.toNat_ofNat, Nat.mod_eq_of_lt hlt] at hzero
      omega
    case isFalse hge =>
      have hq : 0 < v / 32 := by omega
      have hbound : v / 32 < 32 ^ fuel := by
        rw [Nat.div_lt_iff_lt_mul (by decide), ← pow_succ]
        exact h
      have hne : b32Digits fuel (v / 32) ≠ [] := by
        cases fuel with
        | zero => omega
        | succ fuel => unfold b32Digits; split <;> simp
      rw [List.head?_append_of_ne_nil _ hne]
      exact ih hq hbound

/-- A spelling begins with the character `0` exactly when its first digit is 0. -/
theorem head?_spelling_eq_zero_iff {ds : List Digit} :
    (ds.map Alphabet.num.symbol).head? = some 0x30 ↔ ds.head? = some 0 := by
  have hzero : (0x30 : Byte) = Alphabet.num.symbol 0 := rfl
  rw [List.head?_map, hzero, Option.map_eq_some_iff]
  simp [symbol_inj]

/-- Settles O30: the spelled digits have value `v` and no leading zero, and with those two properties a digit string is
as short as its value allows and the only one. -/
theorem unpaddedDigitsAreTheShortestOnes : Obligations.UnpaddedDigitsAreTheShortestOnes := by
  unfold Obligations.UnpaddedDigitsAreTheShortestOnes
  refine ⟨rfl, fun v hpos hlt => ?_⟩
  have hbound : v < 32 ^ 13 := by omega
  have hvalue : digitsValue (b32Digits 13 v) = v := b32Digits_value hbound (by decide)
  have hhead : (b32Digits 13 v).head? ≠ some 0 := b32Digits_head_ne_zero hpos hbound
  have hlen : (b32Str v).length = (b32Digits 13 v).length := List.length_map _
  rw [hlen]
  refine ⟨over_spelling _ _, ?nonempty, mt head?_spelling_eq_zero_iff.mp hhead, ?value, ?fits, fun n hn => ?least,
    fun d hover _ hd hdv => ?unique⟩
  case nonempty =>
    refine List.length_pos_iff.mpr fun hnil => ?_
    rw [hnil] at hvalue
    exact absurd hvalue (Nat.ne_of_lt hpos)
  case value => rw [b32Str, fieldValue_spelling, hvalue]
  case fits => simpa only [hvalue] using digitsValue_lt (b32Digits 13 v)
  case least => exact length_le_of_digitsValue_lt hhead (by rwa [hvalue])
  case unique =>
    obtain ⟨ds, rfl⟩ := exists_spelling_of_over hover
    rw [fieldValue_spelling] at hdv
    have hds : ds.head? ≠ some 0 := mt head?_spelling_eq_zero_iff.mpr hd
    rw [b32Str, digitsValue_inj_of_head_ne_zero hds hhead (hdv.trans hvalue.symm)]

/-! ### The parse (R112) -/

/-- Settles O32: a string over NUM is the spelling of a digit sequence, and on a spelling the parse and the positional
sum are both the sequence's value. -/
theorem parseIsThePositionalSum : Obligations.ParseIsThePositionalSum := by
  unfold Obligations.ParseIsThePositionalSum
  refine ⟨fun d hover => ?spelled, fun d hforeign => ?foreign⟩
  case spelled =>
    obtain ⟨ds, rfl⟩ := exists_spelling_of_over hover
    rw [fieldValue_spelling, List.length_map]
    exact ⟨b32Parse_spelling ds, digitsValue_lt ds⟩
  case foreign => rw [b32Parse, mapM_index_eq_none hforeign, Option.map_none]

/-! ### TODIG and FROMDIG (R113, R114) -/

/-- The W digits of a shape hold every value of its field. -/
theorem two_pow_fieldBits_le (sh : Shape) : 2 ^ sh.fieldBits ≤ 32 ^ sh.chars := by
  cases sh <;> decide

/-- Settles O33: the padded digits are the spelling of `fixedDigits`, whose length and value are known because the
field's values all fit in W digits. -/
theorem toDigGivesThePaddedDigits : Obligations.ToDigGivesThePaddedDigits := by
  unfold Obligations.ToDigGivesThePaddedDigits
  intro sh v s fw w
  have hfw : sh.fieldBits = fw := by cases sh <;> rfl
  have hw : sh.chars = w := by cases sh <;> rfl
  simp only [← hfw, ← hw, exec_eq_answer_iff, opOf]
  refine ⟨fun hover => congrArg finish (opToDig_overflow hover), fun hfits => ?digits⟩
  case digits =>
    have hbound : v.toNat < 32 ^ 13 := lt_trans v.isLt (by decide)
    have hchars : 0 < sh.chars := by cases sh <;> decide
    refine ⟨_, congrArg finish (opToDig_digits hfits), (padL_b32Str _ _).symm, ?_, over_spelling _ _, ?_⟩
    · rw [List.length_map, fixedDigits_length hchars (lt_of_lt_of_le hfits (two_pow_fieldBits_le sh))]
    · rw [fieldValue_spelling, fixedDigits_value hbound]

/-- FROMDIG of a string of W characters over NUM, by its value. -/
theorem opFromDig_over {sh : Shape} {d : StrOperand} (hlen : d.slen.toNat = sh.chars) (hover : Over .num d.cells) :
    opFromDig sh d = if 2 ^ sh.fieldBits ≤ fieldValue .num d.cells then raise .fieldOverflow 0
      else .ok { ra := BitVec.ofNat 64 (fieldValue .num d.cells) } := by
  obtain ⟨l, cells⟩ := d
  obtain ⟨ds, rfl⟩ := exists_spelling_of_over hover
  rw [fieldValue_spelling]
  exact opFromDig_spelling l ds hlen

/-- Settles O35: one equation of the operation for each outcome of its checks, and the position that the character
check reports is the lowest foreign one. -/
theorem fromDigGivesTheValue : Obligations.FromDigGivesTheValue := by
  unfold Obligations.FromDigGivesTheValue
  intro sh d s _ fw w
  have hfw : sh.fieldBits = fw := by cases sh <;> rfl
  have hw : sh.chars = w := by cases sh <;> rfl
  simp only [← hfw, ← hw, exec_eq_answer_iff, opOf]
  refine ⟨fun hlen => ?length, fun hlen p hp => ?character, fun hlen hover hbig => ?overflow,
    fun hlen hover hfits => ?value⟩
  case length => exact congrArg finish (opFromDig_length hlen)
  case character =>
    rw [opFromDig_character hlen (not_over_of_lowestForeign hp), firstBad_of_lowestForeign hp, finish_raise]
  case overflow => exact congrArg finish ((opFromDig_over hlen hover).trans (if_pos hbig))
  case value => exact congrArg finish ((opFromDig_over hlen hover).trans (if_neg (Nat.not_le_of_lt hfits)))

end Sys2Proof.Proofs
end

section
/-! The statements of 42_transliterator.md, settled. -/

namespace Sys2Proof.Proofs

open Sys2Proof.Machine

/-! ### The primitive (R130) -/

/-- Two spellings of one digit sequence have symbols of the same index at the same position. -/
theorem exists_index_of_getElem?_spelling (A1 A2 : Alphabet) {ds : List Digit} {i : Nat} {c : Byte}
    (h : (ds.map A1.symbol)[i]? = some c) :
    ∃ d : Digit, A1.index c = some d ∧ (ds.map A2.symbol)[i]? = some (A2.symbol d) := by
  rw [List.getElem?_map, Option.map_eq_some_iff] at h
  obtain ⟨d, hd, rfl⟩ := h
  exact ⟨d, index_symbol A1 d, by rw [List.getElem?_map, hd, Option.map_some]⟩

/-- XLIT has a value only on spellings, and it respells them. -/
theorem exists_spelling_of_xlit_eq_some {A1 A2 : Alphabet} {s t : List Byte} (h : xlit s A1 A2 = some t) :
    ∃ ds : List Digit, s = ds.map A1.symbol ∧ t = ds.map A2.symbol := by
  have hover : Over A1 s := by
    by_contra hforeign
    rw [xlit_eq_none hforeign] at h
    cases h
  obtain ⟨ds, rfl⟩ := exists_spelling_of_over hover
  rw [xlit_spelling] at h
  exact ⟨ds, rfl, (Option.some.inj h).symm⟩

/-- Settles O40: the strings over the source alphabet are the spellings of digit sequences in it, and XLIT answers the
spelling of the same sequence in the target alphabet, so length and indices are those of the sequence. -/
theorem xlitKeepsLengthAndIndex : Obligations.XlitKeepsLengthAndIndex := by
  unfold Obligations.XlitKeepsLengthAndIndex
  intro s A1 A2
  refine ⟨⟨?domain, ?defined⟩, fun t h => ?value⟩
  case domain =>
    rintro ⟨t, h⟩
    obtain ⟨ds, rfl, -⟩ := exists_spelling_of_xlit_eq_some h
    exact over_spelling A1 ds
  case defined =>
    intro hover
    obtain ⟨ds, rfl⟩ := exists_spelling_of_over hover
    exact ⟨_, xlit_spelling A1 A2 ds⟩
  case value =>
    obtain ⟨ds, rfl, rfl⟩ := exists_spelling_of_xlit_eq_some h
    exact ⟨by simp only [List.length_map], fun i c hc => exists_index_of_getElem?_spelling A1 A2 hc⟩

/-! ### XLITF and XLITR (R131, R132) -/

/-- A string operand that fits in the 26 cells has all its characters. -/
theorem length_cells_of_wf {str : StrOperand} (hwf : str.wf = true) (hlen : str.slen.toNat ≤ 26) :
    str.cells.length = str.slen.toNat := by
  have hcells : str.cells.length = min str.slen.toNat 26 := by simpa [StrOperand.wf] using hwf
  rwa [min_eq_left hlen] at hcells

/-- The three outcomes of an operation that checks the length, then the characters, and then respells its string:
what XLITF and XLITR have in common. -/
theorem transliteration_outcomes {A1 A2 : Alphabet} {op : StrOperand → Op Result}
    (hlength : ∀ t, 26 < t.slen.toNat → op t = raise .invalidLength 0)
    (hcharacter : ∀ t, t.slen.toNat ≤ 26 → ¬ Over A1 t.cells → op t = raise .invalidCharacter (firstBad A1 t.cells))
    (hspelling : ∀ (l : BitVec 8) (ds : List Digit), l.toNat ≤ 26 →
      op { slen := l, cells := ds.map A1.symbol } = .ok { r := ds.map A2.symbol })
    (str : StrOperand) (hwf : str.wf = true) :
    (26 < str.slen.toNat → finish (op str) = .err { kind := .invalidLength, epos := 0 }) ∧
    (str.slen.toNat ≤ 26 → ∀ p, LowestForeign A1 str.cells p →
      finish (op str) = .err { kind := .invalidCharacter, epos := BitVec.ofNat 5 p }) ∧
    (str.slen.toNat ≤ 26 → Over A1 str.cells → ∃ t : List Byte,
      finish (op str) = .ok { r := t } ∧ t.length = str.slen.toNat ∧
      ∀ i < str.slen.toNat, ∃ d : Digit, A1.index (str.cells.getD i 0) = some d ∧ t[i]? = some (A2.symbol d)) := by
  refine ⟨fun hlong => congrArg finish (hlength str hlong), fun hlen p hp => ?character, fun hlen hover => ?string⟩
  case character =>
    rw [hcharacter str hlen (not_over_of_lowestForeign hp), firstBad_of_lowestForeign hp, finish_raise]
  case string =>
    have hcells : str.cells.length = str.slen.toNat := length_cells_of_wf hwf hlen
    obtain ⟨l, cells⟩ := str
    obtain ⟨ds, rfl⟩ := exists_spelling_of_over hover
    refine ⟨ds.map A2.symbol, congrArg finish (hspelling l ds hlen), ?length, fun i hi => ?index⟩
    case length => rwa [List.length_map] at hcells ⊢
    case index =>
      refine exists_index_of_getElem?_spelling A1 A2 ?_
      rw [List.getD_eq_getElem _ _ (hcells ▸ hi)]
      exact List.getElem?_eq_getElem (hcells ▸ hi)

/-- Settles O41: XLITF is a transliteration from NUM to CROCK. -/
theorem xlitFGivesTheCrockString : Obligations.XlitFGivesTheCrockString := by
  unfold Obligations.XlitFGivesTheCrockString
  intro str s hwf
  simp only [exec_eq_answer_iff, opOf]
  exact transliteration_outcomes (fun _ => opXlitF_length) (fun _ => opXlitF_character) opXlitF_spelling str hwf

/-- Settles O42: XLITR is a transliteration from CROCK to NUM. -/
theorem xlitRGivesTheNumString : Obligations.XlitRGivesTheNumString := by
  unfold Obligations.XlitRGivesTheNumString
  intro str s hwf
  simp only [exec_eq_answer_iff, opOf]
  exact transliteration_outcomes (fun _ => opXlitR_length) (fun _ => opXlitR_character) opXlitR_spelling str hwf

end Sys2Proof.Proofs
end

section
/-! The statements of 43_codec.md, settled. -/

namespace Sys2Proof.Proofs

open Sys2Proof.Machine

/-! ### The text of an identifier (R150) -/

/-- V, the number of an identifier (40_splitter.md R90). -/
def idValue (high low : Word) : Nat := high.toNat * 2 ^ 64 + low.toNat

/-- The ten digits of the timestamp. -/
def timeDigits (high low : Word) : List Digit := fixedDigits 10 (splitFields high low).time.toNat

/-- The eight digits of `random1`. -/
def random1Digits (high low : Word) : List Digit := fixedDigits 8 (splitFields high low).random1.toNat

/-- The eight digits of `random2`. -/
def random2Digits (high low : Word) : List Digit := fixedDigits 8 (splitFields high low).random2.toNat

/-- The 26 digits of an identifier, those of its three fields end to end. -/
def idDigits (high low : Word) : List Digit := timeDigits high low ++ random1Digits high low ++ random2Digits high low

/-- The text ENCODE answers: the CROCK spelling of the identifier's digits. -/
def idText (high low : Word) : List Byte := (idDigits high low).map Alphabet.crock.symbol

section
variable (high low : Word)

@[simp] theorem timeDigits_length : (timeDigits high low).length = 10 :=
  fixedDigits_length (by decide) (lt_trans (splitFields high low).time.isLt (by decide))

@[simp] theorem random1Digits_length : (random1Digits high low).length = 8 :=
  fixedDigits_length (by decide) (splitFields high low).random1.isLt

@[simp] theorem random2Digits_length : (random2Digits high low).length = 8 :=
  fixedDigits_length (by decide) (splitFields high low).random2.isLt

@[simp] theorem digitsValue_timeDigits : digitsValue (timeDigits high low) = (splitFields high low).time.toNat :=
  fixedDigits_value (lt_trans (splitFields high low).time.isLt (by decide))

@[simp] theorem digitsValue_random1Digits :
    digitsValue (random1Digits high low) = (splitFields high low).random1.toNat :=
  fixedDigits_value (lt_trans (splitFields high low).random1.isLt (by decide))

@[simp] theorem digitsValue_random2Digits :
    digitsValue (random2Digits high low) = (splitFields high low).random2.toNat :=
  fixedDigits_value (lt_trans (splitFields high low).random2.isLt (by decide))

@[simp] theorem idDigits_length : (idDigits high low).length = 26 := by simp [idDigits]

@[simp] theorem idText_length : (idText high low).length = 26 := by simp [idText]

theorem over_idText : Over .crock (idText high low) := over_spelling _ _

theorem idValue_lt : idValue high low < 2 ^ 128 := by
  have hhigh := high.isLt
  have hlow := low.isLt
  unfold idValue
  omega

/-- The 26 digits are those of V: the fields stand in it 80, 40 and 0 bits up, and a digit is five bits. -/
theorem digitsValue_idDigits : digitsValue (idDigits high low) = idValue high low := by
  rw [idDigits, digitsValue_append, digitsValue_append, random1Digits_length, random2Digits_length,
    digitsValue_timeDigits, digitsValue_random1Digits, digitsValue_random2Digits, splitFields_time_toNat,
    splitFields_random1_toNat, splitFields_random2_toNat, idValue]
  omega

theorem opEncode_eq : opEncode high low = .ok { r := idText high low } := opEncode_digits high low

theorem exec_encode (s : State) : exec (.encode high low) s = .next (s.answer (.ok { r := idText high low })) := by
  rw [exec_eq_answer_iff, opOf, opEncode_eq, finish_ok]

/-- 26 digits with the value of an identifier are its digits. -/
theorem eq_idDigits {ds : List Digit} (hlen : ds.length = 26) (hv : digitsValue ds = idValue high low) :
    ds = idDigits high low :=
  digitsValue_inj (by rw [hlen, idDigits_length]) (by rw [hv, digitsValue_idDigits])

end

/-! ### Splitting and joining undo each other on an identifier -/

/-- Over a part that lies below the shifted one, the joiner's `or` adds; the shift drops what passes bit 63
(40_splitter.md R92). -/
theorem toNat_shiftLeft_or {n : Nat} (hn : n ≤ 64) (x : Word) {y : Word} (hy : y.toNat < 2 ^ n) :
    (x <<< n ||| y).toNat = x.toNat % 2 ^ (64 - n) * 2 ^ n + y.toNat := by
  have hshift : x.toNat <<< n % 2 ^ 64 = (x.toNat % 2 ^ (64 - n)) <<< n := by
    rw [Nat.shiftLeft_eq, Nat.shiftLeft_eq, ← Nat.mul_mod_mul_right, ← pow_add, Nat.sub_add_cancel hn]
  rw [BitVec.toNat_or, BitVec.toNat_shiftLeft, hshift, ← Nat.shiftLeft_add_eq_or_of_lt hy, Nat.shiftLeft_eq]

theorem joinHigh_splitFields (high low : Word) :
    joinHigh ((splitFields high low).time.setWidth 64) ((splitFields high low).random1.setWidth 64) = high := by
  have hhigh := high.isLt
  have hlow := low.isLt
  have hr1 : (((splitFields high low).random1.setWidth 64) >>> 24).toNat = high.toNat % 2 ^ 16 := by
    rw [BitVec.toNat_ushiftRight, BitVec.toNat_setWidth_of_le (by decide), splitFields_random1_toNat,
      Nat.shiftRight_eq_div_pow]
    omega
  refine BitVec.eq_of_toNat_eq ?_
  rw [joinHigh, toNat_shiftLeft_or (by decide) _ (by omega), hr1, BitVec.toNat_setWidth_of_le (by decide),
    splitFields_time_toNat]
  omega

theorem joinLow_splitFields (high low : Word) :
    joinLow ((splitFields high low).random1.setWidth 64) ((splitFields high low).random2.setWidth 64) = low := by
  have hlow := low.isLt
  have hr2 : ((splitFields high low).random2.setWidth 64 &&& 0xFFFFFFFFFF).toNat = low.toNat % 2 ^ 40 := by
    refine (toNat_and_mask (n := 40) (by decide) _).trans ?_
    rw [BitVec.toNat_setWidth_of_le (by decide), splitFields_random2_toNat, Nat.mod_mod]
  refine BitVec.eq_of_toNat_eq ?_
  rw [joinLow, toNat_shiftLeft_or (by decide) _ (by omega), hr2, BitVec.toNat_setWidth_of_le (by decide),
    splitFields_random1_toNat]
  omega

/-! ### Both round trips (R155, R156) -/

/-- DECODE gives the halves of an identifier back from its text. -/
theorem opDecode_idText {l : BitVec 8} (hl : l.toNat = 26) (high low : Word) :
    opDecode { slen := l, cells := idText high low } = .ok { ra := high, rb := low } := by
  have htime : (idDigits high low).take 10 = timeDigits high low := by simp [idDigits]
  have hr1 : ((idDigits high low).drop 10).take 8 = random1Digits high low := by simp [idDigits]
  have hr2 : ((idDigits high low).drop 18).take 8 = random2Digits high low := by
    simp [idDigits, List.drop_append, List.drop_of_length_le]
  have hfits : ¬ 2 ^ 48 ≤ (splitFields high low).time.toNat := Nat.not_le_of_lt (splitFields high low).time.isLt
  rw [idText, opDecode_spelling l _ hl, htime, hr1, hr2, digitsValue_timeDigits, digitsValue_random1Digits,
    digitsValue_random2Digits, if_neg hfits, BitVec.ofNat_toNat, BitVec.ofNat_toNat, BitVec.ofNat_toNat,
    joinHigh_splitFields, joinLow_splitFields]

/-- A host presents a string of 26 characters whole. -/
theorem ofString_of_length {text : List Byte} (h : text.length = 26) :
    StrOperand.ofString text = { slen := 26, cells := text } := by
  simp [StrOperand.ofString, h, List.take_of_length_le]

theorem exec_decode_idText (high low : Word) (s : State) :
    exec (.decode (StrOperand.ofString (idText high low))) s = .next (s.answer (.ok { ra := high, rb := low })) := by
  rw [exec_eq_answer_iff, opOf, ofString_of_length (idText_length high low), opDecode_idText rfl, finish_ok]

/-- The CROCK symbols `0` to `7` are those of the digits below 8. -/
theorem crock_symbol_range_iff (d : Digit) :
    0x30 ≤ (Alphabet.crock.symbol d).toNat ∧ (Alphabet.crock.symbol d).toNat ≤ 0x37 ↔ d.toNat < 8 := by
  revert d
  decide

/-- A string of 26 CROCK symbols is accepted exactly when its value is one of an identifier: its first digit counts
`32 ^ 25`, an eighth of `2 ^ 128`. -/
theorem accepted_spelling_iff {ds : List Digit} (hlen : ds.length = 26) :
    Accepted (ds.map Alphabet.crock.symbol) ↔ digitsValue ds < 2 ^ 128 := by
  cases ds with
  | nil => simp at hlen
  | cons d ds =>
    have hrest : ds.length = 25 := by simpa using hlen
    have hlt : digitsValue ds < 32 ^ 25 := hrest ▸ digitsValue_lt ds
    have hacc : Accepted ((d :: ds).map Alphabet.crock.symbol) ↔ d.toNat < 8 := by
      rw [← crock_symbol_range_iff]
      exact ⟨fun h => h.2.2, fun h => ⟨by rw [List.length_map, hlen], over_spelling _ _, h⟩⟩
    rw [hacc, digitsValue_cons, hrest]
    omega

/-- The accepted strings are the texts of the identifiers (R155). -/
theorem accepted_iff {text : List Byte} : Accepted text ↔ ∃ high low, text = idText high low := by
  constructor
  · intro h
    have ⟨hlen, hover, _⟩ := h
    obtain ⟨ds, rfl⟩ := exists_spelling_of_over hover
    rw [List.length_map] at hlen
    have hlt : digitsValue ds < 2 ^ 128 := (accepted_spelling_iff hlen).mp h
    refine ⟨BitVec.ofNat 64 (digitsValue ds / 2 ^ 64), BitVec.ofNat 64 (digitsValue ds),
      congrArg _ (eq_idDigits _ _ hlen ?value)⟩
    case value =>
      rw [idValue, BitVec.toNat_ofNat, BitVec.toNat_ofNat]
      omega
  · rintro ⟨high, low, rfl⟩
    exact (accepted_spelling_iff (idDigits_length high low)).mpr (digitsValue_idDigits high low ▸ idValue_lt high low)

/-- Settles O52: the accepted strings are the texts of the identifiers, and DECODE gives an identifier back from its
text. -/
theorem valueAndTextRoundTrips : Obligations.ValueAndTextRoundTrips := by
  unfold Obligations.ValueAndTextRoundTrips
  refine ⟨fun high low s => ?value, fun text s h => ?text⟩
  case value =>
    exact ⟨idText high low, exec_encode high low s, accepted_iff.mpr ⟨high, low, rfl⟩, exec_decode_idText high low s⟩
  case text =>
    obtain ⟨high, low, rfl⟩ := accepted_iff.mp h
    exact ⟨high, low, exec_decode_idText high low s, exec_encode high low s⟩

/-! ### ENCODE in stages (R150) -/

/-- The formulas of the split step on 64 bits have the values of the fields: none loses a bit at its field's width. -/
theorem fields_toNat (high low : Word) :
    (high >>> 16).toNat = (splitFields high low).time.toNat ∧
    (((high &&& 0xFFFF) <<< 24) ||| (low >>> 40)).toNat = (splitFields high low).random1.toNat ∧
    (low &&& 0xFFFFFFFFFF).toNat = (splitFields high low).random2.toNat := by
  refine ⟨?time, ?random1, ?random2⟩
  case time => rw [BitVec.toNat_ushiftRight, splitFields_time_toNat, Nat.shiftRight_eq_div_pow]
  case random1 =>
    have hmask : (high &&& 0xFFFF).toNat = high.toNat % 2 ^ 16 := toNat_and_mask (n := 16) (by decide) high
    have hshift : (low >>> 40).toNat = low.toNat / 2 ^ 40 := by
      rw [BitVec.toNat_ushiftRight, Nat.shiftRight_eq_div_pow]
    have hlow := low.isLt
    rw [toNat_shiftLeft_or (by decide) _ (by omega), hmask, hshift, splitFields_random1_toNat]
    omega
  case random2 => rw [splitFields_random2_toNat]; exact toNat_and_mask (n := 40) (by decide) low

/-- Converting, padding and transliterating a number spells its digits in CROCK. -/
theorem xlit_padL_b32Str (v w : Nat) :
    xlit (padL (b32Str v) w) .num .crock = some ((fixedDigits w v).map Alphabet.crock.symbol) := by
  rw [padL_b32Str, xlit_spelling]

/-- Settles O46: the three strings are the CROCK spellings of the digits of the fields, and the text is the spelling of
all of them. -/
theorem encodeIsSplitConvertTransliterate : Obligations.EncodeIsSplitConvertTransliterate := by
  unfold Obligations.EncodeIsSplitConvertTransliterate
  intro high low s
  obtain ⟨htime, hr1, hr2⟩ := fields_toNat high low
  rw [htime, hr1, hr2]
  refine ⟨(timeDigits high low).map Alphabet.crock.symbol, (random1Digits high low).map Alphabet.crock.symbol,
    (random2Digits high low).map Alphabet.crock.symbol, xlit_padL_b32Str _ _, xlit_padL_b32Str _ _,
    xlit_padL_b32Str _ _, ?_, ?_, ?_, ?text⟩
  case text => rw [exec_encode, idText, idDigits, List.map_append, List.map_append]
  all_goals simp

/-! ### DECODE (R152) -/

/-- DECODE of 26 characters over CROCK, by the values of its three substrings. -/
theorem opDecode_over {text : StrOperand} (hlen : text.slen.toNat = 26) (hover : Over .crock text.cells) :
    opDecode text = if 2 ^ 48 ≤ fieldValue .crock (substr text.cells 0 10) then raise .fieldOverflow 0
      else .ok {
        ra := joinHigh (BitVec.ofNat 64 (fieldValue .crock (substr text.cells 0 10)))
          (BitVec.ofNat 64 (fieldValue .crock (substr text.cells 10 18)))
        rb := joinLow (BitVec.ofNat 64 (fieldValue .crock (substr text.cells 10 18)))
          (BitVec.ofNat 64 (fieldValue .crock (substr text.cells 18 26))) } := by
  obtain ⟨l, cells⟩ := text
  obtain ⟨ds, rfl⟩ := exists_spelling_of_over hover
  simp only [substr_spelling, fieldValue_spelling]
  exact opDecode_spelling l ds hlen

/-- An operation that raises InvalidCharacter on a string not over its alphabet reports the lowest foreign position. -/
theorem finish_of_lowestForeign {A : Alphabet} {op : Op Result} {cells : List Byte} {p : Nat}
    (hop : ¬ Over A cells → op = raise .invalidCharacter (firstBad A cells)) (hp : LowestForeign A cells p) :
    finish op = .err { kind := .invalidCharacter, epos := BitVec.ofNat 5 p } := by
  rw [hop (not_over_of_lowestForeign hp), firstBad_of_lowestForeign hp, finish_raise]

/-- Settles O48: one equation of the operation for each outcome of its checks; `joinHigh` and `joinLow` are the joiner's
formulas by definition. -/
theorem decodeChecksAndReassembles : Obligations.DecodeChecksAndReassembles := by
  unfold Obligations.DecodeChecksAndReassembles
  intro text s _
  simp only [exec_eq_answer_iff, opOf]
  refine ⟨fun hlen => ?length, fun hlen p hp => ?character,
    fun hlen hover => ⟨fun hbig => ?overflow, fun hfits => ?halves⟩⟩
  case length => exact congrArg finish (opDecode_length hlen)
  case character => exact finish_of_lowestForeign (opDecode_character hlen) hp
  case overflow => exact congrArg finish ((opDecode_over hlen hover).trans (if_pos hbig))
  case halves => exact congrArg finish ((opDecode_over hlen hover).trans (if_neg (Nat.not_le_of_lt hfits)))

/-! ### No case is folded (R157) -/

/-- The letters that folding would take for a symbol of the alphabet: over CROCK the lower-case ones and I, L, O, U, over
NUM the upper-case ones. -/
def FoldedLetter : Alphabet → Byte → Prop
  | .crock, c => (0x61 ≤ c.toNat ∧ c.toNat ≤ 0x7A) ∨ c ∈ [0x49, 0x4C, 0x4F, 0x55]
  | .num, c => 0x41 ≤ c.toNat ∧ c.toNat ≤ 0x5A

theorem symbol_not_foldedLetter (A : Alphabet) (d : Digit) : ¬ FoldedLetter A (A.symbol d) := by
  cases A
  case num | crock =>
    unfold FoldedLetter
    revert d
    decide

theorem isSymbol_of_foldedLetter {A : Alphabet} {c : Byte} (h : FoldedLetter A c) : A.isSymbol c = false := by
  rw [Bool.eq_false_iff]
  intro hsymbol
  obtain ⟨d, rfl⟩ := isSymbol_iff.mp hsymbol
  exact symbol_not_foldedLetter A d h

theorem lowestForeign_of_getElem? {A : Alphabet} {cells : List Byte} {p : Nat} {c : Byte} (hc : cells[p]? = some c)
    (hlow : ∀ k < p, A.isSymbol (cells.getD k 0) = true) (hforeign : A.isSymbol c = false) :
    LowestForeign A cells p := by
  obtain ⟨hp, -⟩ := List.getElem?_eq_some_iff.mp hc
  exact ⟨hp, by rwa [List.getD_eq_getElem?_getD, hc, Option.getD_some], hlow⟩

/-- Settles O53: no symbol of the alphabet is such a letter, so its position is the lowest foreign one, which every
operation on strings reports. -/
theorem noCaseIsFolded : Obligations.NoCaseIsFolded := by
  unfold Obligations.NoCaseIsFolded
  refine ⟨fun A str s p c _ hc hlow => ?rejected, fun high low s => ⟨_, exec_encode high low s, ?encode⟩⟩
  case rejected =>
    have hforeign (h : FoldedLetter A c) : LowestForeign A str.cells p :=
      lowestForeign_of_getElem? hc hlow (isSymbol_of_foldedLetter h)
    simp only [exec_eq_answer_iff, opOf]
    cases A with
    | crock =>
      exact fun h => ⟨fun hlen => finish_of_lowestForeign (opDecode_character hlen) (hforeign h),
        fun hlen => finish_of_lowestForeign (opXlitR_character hlen) (hforeign h)⟩
    | num =>
      exact fun h => ⟨fun hlen => finish_of_lowestForeign (opXlitF_character hlen) (hforeign h),
        fun sh hlen => finish_of_lowestForeign (opFromDig_character hlen) (hforeign h)⟩
  case encode =>
    intro c hc hlower
    have hforeign : Alphabet.crock.isSymbol c = false := isSymbol_of_foldedLetter (A := .crock) (.inl hlower)
    rw [over_idText high low c hc] at hforeign
    cases hforeign

/-! ### The response word of ENCODE (R158) -/

/-- Settles O54: the response is the text of the identifier, 26 symbols of CROCK, and `packRsp_fields` and `packRsp_cell`
read it from the port word. -/
theorem encodeAnswers26CrockSymbols : Obligations.EncodeAnswers26CrockSymbols := by
  unfold Obligations.EncodeAnswers26CrockSymbols
  intro high low s
  obtain ⟨hstatus, -, hrlen, -⟩ := packRsp_fields 0 0 { r := idText high low }
  refine ⟨_, exec_encode high low s, hstatus, ?rlen, fun i hi => ?cell⟩
  case rlen => exact hrlen.trans (congrArg (BitVec.ofNat 8) (idText_length high low))
  case cell =>
    have hlt : i < (idText high low).length := by rwa [idText_length]
    have hcell : Rsp.cell (Response.ok { r := idText high low }).toRsp i = (idText high low).getD i 0 :=
      packRsp_cell _ _ _ hi
    rw [hcell, List.getD_eq_getElem _ _ hlt]
    exact over_idText high low _ (List.getElem_mem hlt)

/-! ### The order of the timestamps (R159) -/

/-- Symbols compare by code as their digits do. -/
theorem symbol_lt_iff (A : Alphabet) (d e : Digit) : (A.symbol d).toNat < (A.symbol e).toNat ↔ d.toNat < e.toNat := by
  have hmono {d e : Digit} (h : d.toNat < e.toNat) : (A.symbol d).toNat < (A.symbol e).toNat := by
    rw [symbol_eq_getElem, symbol_eq_getElem]
    exact List.pairwise_iff_getElem.mp (table_rising A) _ _ _ _ h
  refine ⟨fun h => ?_, hmono⟩
  rcases Nat.lt_trichotomy d.toNat e.toNat with hlt | heq | hgt
  · exact hlt
  · rw [BitVec.eq_of_toNat_eq heq] at h
    exact absurd h (lt_irrefl _)
  · exact absurd h (Nat.lt_asymm (hmono hgt))

/-- Spellings of one length compare as ordinary strings exactly as the values of their digits do. -/
theorem textBefore_spelling_iff (A : Alphabet) {ds es : List Digit} (hl : ds.length = es.length) :
    TextBefore (ds.map A.symbol) (es.map A.symbol) ↔ digitsValue ds < digitsValue es := by
  induction ds generalizing es with
  | nil => cases es with
    | nil => simp [TextBefore]
    | cons e es => simp at hl
  | cons d ds ih => cases es with
    | nil => simp at hl
    | cons e es =>
      have hl' : ds.length = es.length := by simpa using hl
      rw [List.map_cons, List.map_cons, TextBefore, digitsValue_cons_lt_iff hl', symbol_lt_iff, symbol_inj, ih hl']

theorem idText_take_ten (high low : Word) :
    (idText high low).take 10 = (timeDigits high low).map Alphabet.crock.symbol := by
  simp [idText, idDigits]

/-- Settles O55: the first ten characters spell the digits of the timestamp, and spellings of ten digits compare as
their values. -/
theorem timestampPrefixesCompareAsTimestamps : Obligations.TimestampPrefixesCompareAsTimestamps := by
  unfold Obligations.TimestampPrefixesCompareAsTimestamps
  intro high1 low1 high2 low2 s
  refine ⟨_, _, exec_encode high1 low1 s, exec_encode high2 low2 s, ?_⟩
  obtain ⟨htime1, -, -⟩ := fields_toNat high1 low1
  obtain ⟨htime2, -, -⟩ := fields_toNat high2 low2
  rw [htime1, htime2, idText_take_ten, idText_take_ten, textBefore_spelling_iff _ (by simp), digitsValue_timeDigits,
    digitsValue_timeDigits]

/-! ### The listed texts (R160, R161) -/

/-- The text of an identifier is the spelling of any 26 digits that have its value. -/
theorem idText_eq {high low : Word} {ds : List Digit} (hlen : ds.length = 26)
    (hv : digitsValue ds = idValue high low) : idText high low = ds.map Alphabet.crock.symbol :=
  congrArg _ (eq_idDigits high low hlen hv).symm

theorem idText_zero : idText 0 0 = List.replicate 26 0x30 :=
  idText_eq (ds := List.replicate 26 0) rfl (digitsValue_replicate_zero 26)

/-- Settles O57: the 26 zero digits have the value of the identifier (0, 0). -/
theorem zeroIdentifierIsTwentySixZeros : Obligations.ZeroIdentifierIsTwentySixZeros := by
  unfold Obligations.ZeroIdentifierIsTwentySixZeros
  intro s
  rw [← idText_zero]
  exact ⟨exec_encode 0 0 s, exec_decode_idText 0 0 s⟩

/-- `7` and 25 `A` have the digits 7 and 25 times 10. -/
theorem idText_seven_tens : idText 0xEA5294A5294A5294 0xA5294A5294A5294A = 0x37 :: List.replicate 25 0x41 :=
  idText_eq (ds := 7 :: List.replicate 25 10) rfl (by decide)

/-- Settles O58: the length alone decides the first two; `U` is foreign to CROCK; ten `A` are a timestamp field of
`2 ^ 48` or more; and the accepted texts are those of two identifiers. -/
theorem listedTextsAreRejected : Obligations.ListedTextsAreRejected := by
  unfold Obligations.ListedTextsAreRejected
  intro s
  rw [← idText_zero, ← idText_seven_tens]
  refine ⟨fun text hlen => ?length, fun n hn => ?lengths, ?character, ?overflow, exec_decode_idText _ _ s,
    exec_decode_idText 0 0 s⟩
  all_goals rw [exec_eq_answer_iff, opOf]
  case length =>
    refine congrArg finish (opDecode_length ?_)
    rcases hlen with h | h | h <;> rw [h] <;> decide
  case lengths =>
    refine congrArg finish (opDecode_length ?_)
    revert n
    decide
  case character =>
    have hp : LowestForeign .crock (0x55 :: List.replicate 25 0x30) 0 := ⟨by decide, by decide, by simp⟩
    exact finish_of_lowestForeign (opDecode_character rfl) hp
  case overflow =>
    have hbig : 2 ^ 48 ≤ digitsValue ((List.replicate 26 (10 : Digit)).take 10) := by decide
    exact congrArg finish ((opDecode_spelling 26 (List.replicate 26 10) rfl).trans (if_pos hbig))

end Sys2Proof.Proofs
end

section
/-! The statements of 60_exceptions.md, settled. -/

namespace Sys2Proof.Proofs

open Sys2Proof.Machine

/-! ### The causes, by shape and by position (R181 to R183) -/

theorem lengthCause_fromDig_iff {sh : Shape} {d : StrOperand} :
    LengthCause (.fromDig sh d) ↔ d.slen.toNat ≠ sh.chars := by
  cases sh <;> rfl

theorem not_lengthCause_fromDig_iff {sh : Shape} {d : StrOperand} :
    ¬ LengthCause (.fromDig sh d) ↔ d.slen.toNat = sh.chars := by
  rw [lengthCause_fromDig_iff, not_not]

theorem overflowCause_fromDig_iff {sh : Shape} {d : StrOperand} {p : Nat} :
    OverflowCause (.fromDig sh d) p ↔ p = 0 ∧ 2 ^ sh.fieldBits ≤ fieldValue .num d.cells := by
  cases sh <;> rfl

theorem overflowCause_toDig_iff {sh : Shape} {v : Word} {p : Nat} :
    OverflowCause (.toDig sh v) p ↔ p = 0 ∧ 2 ^ sh.fieldBits ≤ v.toNat := by
  cases sh <;> rfl

/-- Only JOIN reports another operand than operand 0, and it has three. -/
theorem overflowCause_le_two {i : Instr} {p : Nat} (h : OverflowCause i p) : p ≤ 2 := by
  cases i with
  | encode | split | xlitF | xlitR => exact False.elim h
  | decode text => exact h.1.le.trans (Nat.zero_le 2)
  | join time random1 random2 => obtain ⟨rfl, -⟩ | ⟨rfl, -⟩ | ⟨rfl, -⟩ := h <;> decide
  | toDig shape value => exact (overflowCause_toDig_iff.mp h).1.le.trans (Nat.zero_le 2)
  | fromDig shape digits => exact (overflowCause_fromDig_iff.mp h).1.le.trans (Nat.zero_le 2)

/-- Every instruction the decoder gives, by the fields of the request it is made of. -/
theorem decodeReq_ok_cases {q : ReqWord} {i : Instr} (h : decodeReq q = .ok i) :
    i = .encode (Req.a q) (Req.b q) ∨ i = .decode (Req.str q) ∨ i = .split (Req.a q) (Req.b q) ∨
    i = .join (Req.a q) (Req.b q) (Req.c q) ∨ i = .toDig (Shape.ofWsel (Req.wsel q)) (Req.a q) ∨
    i = .fromDig (Shape.ofWsel (Req.wsel q)) (Req.str q) ∨ i = .xlitF (Req.str q) ∨ i = .xlitR (Req.str q) := by
  unfold decodeReq at h
  split at h
  · cases h
  · split at h <;> cases h <;> simp

theorem length_str_cells_le (q : ReqWord) : (Req.str q).cells.length ≤ 26 := by
  simp [Req.str]

/-- The lowest foreign character of a request stands in one of the 26 cells. -/
theorem characterCause_le {q : ReqWord} {i : Instr} {p : Nat} (hi : decodeReq q = .ok i) (h : CharacterCause i p) :
    p ≤ 25 := by
  have hstr {A : Alphabet} (hp : LowestForeign A (Req.str q).cells p) : p ≤ 25 := by
    have hlt := lt_of_lt_of_le hp.1 (length_str_cells_le q)
    omega
  obtain rfl | rfl | rfl | rfl | rfl | rfl | rfl | rfl := decodeReq_ok_cases hi
  · exact False.elim h
  · exact hstr h
  · exact False.elim h
  · exact False.elim h
  · exact False.elim h
  · exact hstr h
  · exact hstr h
  · exact hstr h

/-! ### What each cause is answered with (R185) -/

theorem finish_opOf_of_lengthCause {i : Instr} (hlen : LengthCause i) :
    finish (opOf i) = .err { kind := .invalidLength, epos := 0 } := by
  cases i with
  | encode | split | join | toDig => exact False.elim hlen
  | decode text => exact congrArg finish (opDecode_length hlen)
  | fromDig shape digits => exact congrArg finish (opFromDig_length (lengthCause_fromDig_iff.mp hlen))
  | xlitF str => exact congrArg finish (opXlitF_length hlen)
  | xlitR str => exact congrArg finish (opXlitR_length hlen)

/-- A transliteration has a result on every string over its source alphabet that fits in the cells. -/
theorem exists_ok_of_over {A1 A2 : Alphabet} {op : StrOperand → Op Result}
    (hspelling : ∀ (l : BitVec 8) (ds : List Digit), l.toNat ≤ 26 →
      op { slen := l, cells := ds.map A1.symbol } = .ok { r := ds.map A2.symbol })
    {str : StrOperand} (hlen : str.slen.toNat ≤ 26) (hover : Over A1 str.cells) :
    ∃ res, finish (op str) = .ok res := by
  obtain ⟨l, cells⟩ := str
  obtain ⟨ds, rfl⟩ := exists_spelling_of_over hover
  exact ⟨_, congrArg finish (hspelling l ds hlen)⟩

section
variable {i : Instr} (hlen : ¬ LengthCause i)
include hlen

theorem finish_opOf_of_characterCause {p : Nat} (hchar : CharacterCause i p) :
    finish (opOf i) = .err { kind := .invalidCharacter, epos := BitVec.ofNat 5 p } := by
  cases i with
  | encode | split | join | toDig => exact False.elim hchar
  | decode text => exact finish_of_lowestForeign (opDecode_character (not_not.mp hlen)) hchar
  | fromDig shape digits =>
    exact finish_of_lowestForeign (opFromDig_character (not_lengthCause_fromDig_iff.mp hlen)) hchar
  | xlitF str => exact finish_of_lowestForeign (opXlitF_character (Nat.le_of_not_lt hlen)) hchar
  | xlitR str => exact finish_of_lowestForeign (opXlitR_character (Nat.le_of_not_lt hlen)) hchar

variable (hchar : ∀ p, ¬ CharacterCause i p)
include hchar

theorem finish_opOf_of_overflowCause {p : Nat} (hover : OverflowCause i p) :
    finish (opOf i) = .err { kind := .fieldOverflow, epos := BitVec.ofNat 5 p } := by
  cases i with
  | encode | split | xlitF | xlitR => exact False.elim hover
  | decode text =>
    obtain ⟨rfl, hbig⟩ := hover
    exact congrArg finish
      ((opDecode_over (not_not.mp hlen) (over_of_forall_not_lowestForeign hchar)).trans (if_pos hbig))
  | join time random1 random2 =>
    obtain ⟨rfl, ht⟩ | ⟨rfl, ht, hr1⟩ | ⟨rfl, ht, hr1, hr2⟩ := hover
    · exact congrArg finish (opJoin_time_overflow ht)
    · exact congrArg finish (opJoin_random1_overflow ht hr1)
    · exact congrArg finish (opJoin_random2_overflow ht hr1 hr2)
  | toDig shape value =>
    obtain ⟨rfl, hbig⟩ := overflowCause_toDig_iff.mp hover
    exact congrArg finish (opToDig_overflow hbig)
  | fromDig shape digits =>
    obtain ⟨rfl, hbig⟩ := overflowCause_fromDig_iff.mp hover
    have hw := not_lengthCause_fromDig_iff.mp hlen
    exact congrArg finish ((opFromDig_over hw (over_of_forall_not_lowestForeign hchar)).trans (if_pos hbig))

theorem finish_opOf_of_no_cause (hover : ∀ p, ¬ OverflowCause i p) : ∃ res, finish (opOf i) = .ok res := by
  cases i with
  | encode high low => exact ⟨_, congrArg finish (opEncode_eq high low)⟩
  | split high low => exact ⟨_, rfl⟩
  | decode text =>
    have hfits : ¬ 2 ^ 48 ≤ fieldValue .crock (substr text.cells 0 10) := fun hbig => hover 0 ⟨rfl, hbig⟩
    exact ⟨_, congrArg finish
      ((opDecode_over (not_not.mp hlen) (over_of_forall_not_lowestForeign hchar)).trans (if_neg hfits))⟩
  | join time random1 random2 =>
    have ht : time.toNat < 2 ^ 48 := Nat.lt_of_not_le fun h => hover 0 (.inl ⟨rfl, h⟩)
    have hr1 : random1.toNat < 2 ^ 40 := Nat.lt_of_not_le fun h => hover 1 (.inr (.inl ⟨rfl, ht, h⟩))
    have hr2 : random2.toNat < 2 ^ 40 := Nat.lt_of_not_le fun h => hover 2 (.inr (.inr ⟨rfl, ht, hr1, h⟩))
    exact ⟨_, congrArg finish (opJoin_legal ht hr1 hr2)⟩
  | toDig shape value =>
    have hfits := Nat.lt_of_not_le fun hbig => hover 0 (overflowCause_toDig_iff.mpr ⟨rfl, hbig⟩)
    exact ⟨_, congrArg finish (opToDig_digits hfits)⟩
  | fromDig shape digits =>
    have hw := not_lengthCause_fromDig_iff.mp hlen
    have hfits : ¬ 2 ^ shape.fieldBits ≤ fieldValue .num digits.cells :=
      fun hbig => hover 0 (overflowCause_fromDig_iff.mpr ⟨rfl, hbig⟩)
    exact ⟨_, congrArg finish ((opFromDig_over hw (over_of_forall_not_lowestForeign hchar)).trans (if_neg hfits))⟩
  | xlitF str =>
    exact exists_ok_of_over opXlitF_spelling (Nat.le_of_not_lt hlen) (over_of_forall_not_lowestForeign hchar)
  | xlitR str =>
    exact exists_ok_of_over opXlitR_spelling (Nat.le_of_not_lt hlen) (over_of_forall_not_lowestForeign hchar)

end

/-- Settles O18: the answer to each cause, where no cause before it in the order holds, is one equation of the
operation; the decoder's 26 cells bound the position of a foreign character. -/
theorem errorsFollowTheOrderOfPrecedence : Obligations.ErrorsFollowTheOrderOfPrecedence := by
  unfold Obligations.ErrorsFollowTheOrderOfPrecedence
  intro q s
  refine ⟨fun e he => by rw [step_present, responseOf_of_error he], fun i hi => ?operation⟩
  case operation =>
    rw [step_present, responseOf_of_ok hi]
    simp only [Host.Outcome.next.injEq, answer_inj]
    exact ⟨finish_opOf_of_lengthCause,
      fun hlen _ hp => ⟨characterCause_le hi hp, finish_opOf_of_characterCause hlen hp⟩,
      fun hlen hchar _ hp => ⟨overflowCause_le_two hp, finish_opOf_of_overflowCause hlen hchar hp⟩,
      finish_opOf_of_no_cause⟩

/-! ### Which operation can produce which code (R180) -/

/-- An operation ends with results, or with the error of a cause that it has. -/
theorem finish_opOf_cases (i : Instr) :
    (∃ res, finish (opOf i) = .ok res) ∨
    (LengthCause i ∧ finish (opOf i) = .err { kind := .invalidLength, epos := 0 }) ∨
    (∃ p, CharacterCause i p ∧ finish (opOf i) = .err { kind := .invalidCharacter, epos := BitVec.ofNat 5 p }) ∨
    (∃ p, OverflowCause i p ∧ finish (opOf i) = .err { kind := .fieldOverflow, epos := BitVec.ofNat 5 p }) := by
  by_cases hlen : LengthCause i
  · exact .inr (.inl ⟨hlen, finish_opOf_of_lengthCause hlen⟩)
  · by_cases hchar : ∃ p, CharacterCause i p
    · obtain ⟨p, hp⟩ := hchar
      exact .inr (.inr (.inl ⟨p, hp, finish_opOf_of_characterCause hlen hp⟩))
    · rw [not_exists] at hchar
      by_cases hover : ∃ p, OverflowCause i p
      · obtain ⟨p, hp⟩ := hover
        exact .inr (.inr (.inr ⟨p, hp, finish_opOf_of_overflowCause hlen hchar hp⟩))
      · exact .inl (finish_opOf_of_no_cause hlen hchar (not_exists.mp hover))

section
variable {i : Instr}

theorem zero_mem_statusesOf : 0 ∈ statusesOf i := by
  cases i <;> simp [statusesOf]

theorem one_mem_statusesOf (h : LengthCause i) : 1 ∈ statusesOf i := by
  cases i with
  | encode | split | join | toDig => exact False.elim h
  | decode | fromDig | xlitF | xlitR => simp [statusesOf]

theorem two_mem_statusesOf {p : Nat} (h : CharacterCause i p) : 2 ∈ statusesOf i := by
  cases i with
  | encode | split | join | toDig => exact False.elim h
  | decode | fromDig | xlitF | xlitR => simp [statusesOf]

theorem three_mem_statusesOf {p : Nat} (h : OverflowCause i p) : 3 ∈ statusesOf i := by
  cases i with
  | encode | split | xlitF | xlitR => exact False.elim h
  | decode | join | toDig | fromDig => simp [statusesOf]

theorem statusesOf_le_three : ∀ c ∈ statusesOf i, c.toNat ≤ 3 := by
  cases i <;> simp [statusesOf]

end

/-- The table of R180 lists for each operation the codes of the causes it can have. -/
theorem status_finish_opOf_mem (i : Instr) : (finish (opOf i)).status ∈ statusesOf i := by
  obtain ⟨res, h⟩ | ⟨hlen, h⟩ | ⟨p, hp, h⟩ | ⟨p, hp, h⟩ := finish_opOf_cases i <;> rw [h]
  · exact zero_mem_statusesOf
  · exact one_mem_statusesOf hlen
  · exact two_mem_statusesOf hp
  · exact three_mem_statusesOf hp

/-- Settles O17: an operation's codes are those of its causes and all below 4, so code 4 is left for the requests that
the decoder rejects. -/
theorem statusCodesAreThoseOfTheOperation : Obligations.StatusCodesAreThoseOfTheOperation := by
  unfold Obligations.StatusCodesAreThoseOfTheOperation
  refine ⟨⟨rfl, rfl, rfl, rfl⟩, fun i s => ⟨_, exec_eq i s, status_finish_opOf_mem i⟩, fun q s r h => ?request⟩
  case request =>
    obtain rfl : responseOf q = r := by simpa using h
    cases hq : decodeReq q with
    | error e =>
      rw [responseOf_of_error hq]
      exact ⟨by decide, fun _ => ⟨e, rfl⟩, fun _ => rfl⟩
    | ok i =>
      rw [responseOf_of_ok hq]
      have hle : (finish (opOf i)).status.toNat ≤ 3 := statusesOf_le_three _ (status_finish_opOf_mem i)
      refine ⟨by omega, fun h4 => ?_, fun ⟨_, he⟩ => nomatch he⟩
      rw [h4] at hle
      exact absurd hle (by decide)

/-! ### What an error does (R186) -/

/-- Settles O15: a step on a request adds its response and nothing else, and a response whose status is not OK is an
error, whose word has no bit above `epos`. -/
theorem errorsCarryOnlyStatusAndPosition : Obligations.ErrorsCarryOnlyStatusAndPosition := by
  unfold Obligations.ErrorsCarryOnlyStatusAndPosition
  intro q s t h
  obtain rfl : s.answer (responseOf q) = t := by simpa using h
  refine ⟨responseOf q, rfl, fun hstatus => ?error⟩
  case error =>
    obtain ⟨e, he⟩ := exists_err_of_status_ne_zero hstatus
    rw [he]
    exact ⟨e.kind, e.epos, rfl, rfl, rfl, rfl, toRsp_err e⟩

end Sys2Proof.Proofs
end

section
/-! The round trip of the encoder and the instructions the decoder gives (30_encoding.md). -/

namespace Sys2Proof.Proofs

open Sys2Proof.Machine

/-! ### The encoder's word, read back (R61) -/

/-- The decoder's field reads give back the fields that were put together. -/
theorem packReq_fields (op : BitVec 4) (wsel : BitVec 1) (slen : BitVec 8) (a b c : Word) {cells : List Byte}
    (hcells : cells.length ≤ 26) :
    Req.op (packReq op wsel slen a b c cells) = op ∧ Req.wsel (packReq op wsel slen a b c cells) = wsel ∧
    Req.rsv (packReq op wsel slen a b c cells) = 0 ∧ Req.slen (packReq op wsel slen a b c cells) = slen ∧
    Req.a (packReq op wsel slen a b c cells) = a ∧ Req.b (packReq op wsel slen a b c cells) = b ∧
    Req.c (packReq op wsel slen a b c cells) = c := by
  obtain ⟨hpacked, -⟩ := requestFieldsStandAtTheirBits
  obtain ⟨hop, hwsel, hrsv, hslen, ha, hb, hc, -⟩ := hpacked op wsel slen a b c cells hcells
  exact ⟨hop, hwsel, hrsv, hslen, ha, hb, hc⟩

theorem length_cells_le_of_wf {t : StrOperand} (hwf : t.wf = true) : t.cells.length ≤ 26 := by
  have hlen : t.cells.length = min t.slen.toNat 26 := by simpa [StrOperand.wf] using hwf
  exact hlen ▸ min_le_right _ _

/-- A well-formed string operand is read back from the `slen` and the cells it was packed into. -/
theorem str_packReq (op : BitVec 4) (wsel : BitVec 1) {t : StrOperand} (hwf : t.wf = true) :
    Req.str (packReq op wsel t.slen 0 0 0 t.cells) = t := by
  obtain ⟨-, -, -, hslen, -⟩ := packReq_fields op wsel t.slen 0 0 0 (length_cells_le_of_wf hwf)
  have hlen : t.cells.length = min t.slen.toNat 26 := by simpa [StrOperand.wf] using hwf
  have hread : (List.range (min t.slen.toNat 26)).map (Req.cell (packReq op wsel t.slen 0 0 0 t.cells)) = t.cells := by
    refine List.ext_getElem (by simp [hlen]) fun i hi hi' => ?_
    have h26 : i < 26 := lt_of_lt_of_le hi' (length_cells_le_of_wf hwf)
    rw [List.getElem_map, List.getElem_range, Req.cell, packReq_cell _ _ _ _ _ _ _ h26, List.getD_eq_getElem _ _ hi']
  rw [Req.str, hslen, hread]

theorem ofWsel_wsel_of_shape (sh : Shape) : Shape.ofWsel sh.wsel = sh := by
  cases sh <;> rfl

/-- The decoder reads `op` and `rsv` back, so it selects the operation that was encoded (R65, R72). -/
theorem encodeReq_op (i : Instr) : Req.op (encodeReq i) = opcode i ∧ Req.rsv (encodeReq i) = 0 := by
  cases i <;> exact Laws.OpField.packReq_low ..

/-- Settles O3: `op` and `rsv` select the operation that was encoded, and each field that it reads is read back. -/
theorem decodeOfEncodeGivesBackTheInstruction : Obligations.DecodeOfEncodeGivesBackTheInstruction := by
  unfold Obligations.DecodeOfEncodeGivesBackTheInstruction
  intro i hwf
  obtain ⟨hop, hrsv⟩ := encodeReq_op i
  have hcode := congrArg BitVec.toNat hop
  have hnone : ([] : List Byte).length ≤ 26 := Nat.zero_le _
  cases i with
  | encode high low =>
    obtain ⟨-, -, -, -, ha, hb, -⟩ := packReq_fields 0x1 0 0 high low 0 hnone
    exact (decodeReq_encode hrsv hcode).trans (by rw [encodeReq, opcode, ha, hb])
  | decode text => exact (decodeReq_decode hrsv hcode).trans (by rw [encodeReq, str_packReq _ _ hwf])
  | split high low =>
    obtain ⟨-, -, -, -, ha, hb, -⟩ := packReq_fields 0x3 0 0 high low 0 hnone
    exact (decodeReq_split hrsv hcode).trans (by rw [encodeReq, opcode, ha, hb])
  | join time random1 random2 =>
    obtain ⟨-, -, -, -, ha, hb, hc⟩ := packReq_fields 0x4 0 0 time random1 random2 hnone
    exact (decodeReq_join hrsv hcode).trans (by rw [encodeReq, opcode, ha, hb, hc])
  | toDig shape value =>
    obtain ⟨-, hwsel, -, -, ha, -⟩ := packReq_fields 0x5 shape.wsel 0 value 0 0 hnone
    exact (decodeReq_toDig hrsv hcode).trans (by rw [encodeReq, opcode, hwsel, ha, ofWsel_wsel_of_shape])
  | fromDig shape digits =>
    obtain ⟨-, hwsel, -⟩ := packReq_fields 0x6 shape.wsel digits.slen 0 0 0 (length_cells_le_of_wf hwf)
    exact (decodeReq_fromDig hrsv hcode).trans
      (by rw [encodeReq, opcode, hwsel, str_packReq _ _ hwf, ofWsel_wsel_of_shape])
  | xlitF str => exact (decodeReq_xlitF hrsv hcode).trans (by rw [encodeReq, str_packReq _ _ hwf])
  | xlitR str => exact (decodeReq_xlitR hrsv hcode).trans (by rw [encodeReq, str_packReq _ _ hwf])

/-! ### Decoded instructions -/

theorem wf_str (q : ReqWord) : (Req.str q).wf = true := by
  simp [StrOperand.wf, Req.str]

/-- Settles O4: only a string operand can be ill-formed, and the decoder gives each
exactly the cells below its length. -/
theorem decodedInstructionsAreWellFormed : Obligations.DecodedInstructionsAreWellFormed := by
  unfold Obligations.DecodedInstructionsAreWellFormed
  intro q i h
  obtain rfl | rfl | rfl | rfl | rfl | rfl | rfl | rfl := decodeReq_ok_cases h
  · rfl
  · exact wf_str q
  · rfl
  · rfl
  · rfl
  · exact wf_str q
  · exact wf_str q
  · exact wf_str q

set_option exponentiation.threshold 600 in
/-- Settles O1: each printed word is read at its fields by evaluation. -/
theorem printedRequestWordsDecode : Obligations.PrintedRequestWordsDecode := by
  unfold Obligations.PrintedRequestWordsDecode
  decide

/-! ### The public names (R74) -/

/-- Settles O60: each clause is an equation of a definition. -/
theorem publicNamesExpandToTransactions : Obligations.PublicNamesExpandToTransactions := by
  unfold Obligations.PublicNamesExpandToTransactions
  exact ⟨fun _ _ _ _ => ⟨rfl, rfl, rfl, rfl, rfl, rfl⟩, fun _ _ => ⟨rfl, rfl⟩, fun _ => rfl⟩

end Sys2Proof.Proofs
end

section
/-! The wiring of the splitter and the joiner (40_splitter.md section 2). -/

namespace Sys2Proof.Proofs

open Sys2Proof.Machine

/-! ### Wiring as numbers -/

/-- Bits put side by side count as their values at their places. -/
theorem toNat_append_eq_add {m n : Nat} (x : BitVec m) (y : BitVec n) :
    (x ++ y).toNat = x.toNat * 2 ^ n + y.toNat := by
  rw [BitVec.toNat_append, ← Nat.shiftLeft_add_eq_or_of_lt y.isLt, Nat.shiftLeft_eq]

theorem toNat_slice {n : Nat} (lo w : Nat) (x : BitVec n) :
    (x.extractLsb' lo w).toNat = x.toNat / 2 ^ lo % 2 ^ w := by
  rw [BitVec.extractLsb'_toNat, Nat.shiftRight_eq_div_pow]

/-! ### SPLIT (R91) -/

theorem splitFields_time_eq (high low : Word) : (splitFields high low).time = high.extractLsb' 16 48 := by
  have hhigh := high.isLt
  refine BitVec.eq_of_toNat_eq ?_
  rw [splitFields_time_toNat, toNat_slice]
  omega

theorem splitFields_random1_eq (high low : Word) :
    (splitFields high low).random1 = high.extractLsb' 0 16 ++ low.extractLsb' 40 24 := by
  have hlow := low.isLt
  refine BitVec.eq_of_toNat_eq ?_
  rw [splitFields_random1_toNat, toNat_append_eq_add, toNat_slice, toNat_slice]
  omega

theorem splitFields_random2_eq (high low : Word) : (splitFields high low).random2 = low.extractLsb' 0 40 := by
  refine BitVec.eq_of_toNat_eq ?_
  rw [splitFields_random2_toNat, toNat_slice, pow_zero, Nat.div_one]

theorem exec_split (high low : Word) (s : State) :
    exec (.split high low) s = .next (s.answer (.ok {
      ra := (splitFields high low).time.setWidth 64
      rb := (splitFields high low).random1.setWidth 64
      rc := (splitFields high low).random2.setWidth 64 })) := exec_eq (.split high low) s

/-- Settles O25: each field that the formulas give is, as a number, the slice of the halves. -/
theorem splitIsWiring : Obligations.SplitIsWiring := by
  unfold Obligations.SplitIsWiring
  intro high low s
  rw [exec_split, splitFields_time_eq, splitFields_random1_eq, splitFields_random2_eq]

/-! ### JOIN of legal operands (R92) -/

section
variable {t r1 r2 : Word} (ht : t.toNat < 2 ^ 48) (hr1 : r1.toNat < 2 ^ 40) (hr2 : r2.toNat < 2 ^ 40)

include ht hr1 in
/-- The upper 16 bits of `random1` stand below the timestamp. -/
theorem joinHigh_toNat : (joinHigh t r1).toNat = t.toNat * 2 ^ 16 + r1.toNat / 2 ^ 24 := by
  have hshift : (r1 >>> 24).toNat = r1.toNat / 2 ^ 24 := by
    rw [BitVec.toNat_ushiftRight, Nat.shiftRight_eq_div_pow]
  rw [joinHigh, toNat_shiftLeft_or (by decide) _ (by omega), hshift]
  omega

include hr2 in
/-- The other 24 bits of `random1` stand above `random2`. -/
theorem joinLow_toNat : (joinLow r1 r2).toNat = r1.toNat % 2 ^ 24 * 2 ^ 40 + r2.toNat := by
  have hmask : (r2 &&& 0xFFFFFFFFFF).toNat = r2.toNat :=
    (toNat_and_mask (n := 40) (by decide) r2).trans (Nat.mod_eq_of_lt hr2)
  rw [joinLow, toNat_shiftLeft_or (by decide) _ (hmask.trans_lt hr2), hmask]

include ht hr1 hr2

theorem exec_join (s : State) :
    exec (.join t r1 r2) s = .next (s.answer (.ok { ra := joinHigh t r1, rb := joinLow r1 r2 })) := by
  rw [exec_eq, opOf, opJoin_legal ht hr1 hr2, finish_ok]

/-- Splitting what was joined gives the fields back. -/
theorem exec_split_join (s : State) :
    exec (.split (joinHigh t r1) (joinLow r1 r2)) s = .next (s.answer (.ok { ra := t, rb := r1, rc := r2 })) := by
  have htime : (splitFields (joinHigh t r1) (joinLow r1 r2)).time.setWidth 64 = t := by
    refine BitVec.eq_of_toNat_eq ?_
    rw [BitVec.toNat_setWidth_of_le (by decide), splitFields_time_toNat, joinHigh_toNat ht hr1]
    omega
  have hrandom1 : (splitFields (joinHigh t r1) (joinLow r1 r2)).random1.setWidth 64 = r1 := by
    refine BitVec.eq_of_toNat_eq ?_
    rw [BitVec.toNat_setWidth_of_le (by decide), splitFields_random1_toNat, joinHigh_toNat ht hr1, joinLow_toNat hr2]
    omega
  have hrandom2 : (splitFields (joinHigh t r1) (joinLow r1 r2)).random2.setWidth 64 = r2 := by
    refine BitVec.eq_of_toNat_eq ?_
    rw [BitVec.toNat_setWidth_of_le (by decide), splitFields_random2_toNat, joinLow_toNat hr2]
    omega
  rw [exec_split, htime, hrandom1, hrandom2]

end

/-- Settles O28: the joined halves are, as numbers, the slices of the operands put side by side. -/
theorem joinIsWiring : Obligations.JoinIsWiring := by
  unfold Obligations.JoinIsWiring
  intro t r1 r2 s ht hr1 hr2
  have hhigh : joinHigh t r1 = t.extractLsb' 0 48 ++ r1.extractLsb' 24 16 := by
    refine BitVec.eq_of_toNat_eq ?_
    rw [joinHigh_toNat ht hr1, toNat_append_eq_add, toNat_slice, toNat_slice]
    omega
  have hlow : joinLow r1 r2 = r1.extractLsb' 0 24 ++ r2.extractLsb' 0 40 := by
    refine BitVec.eq_of_toNat_eq ?_
    rw [joinLow_toNat hr2, toNat_append_eq_add, toNat_slice, toNat_slice]
    omega
  rw [exec_join ht hr1 hr2, hhigh, hlow]

theorem toNat_zeroExtend_lt {n : Nat} (hn : n ≤ 64) (x : BitVec n) : (x.setWidth 64).toNat < 2 ^ n := by
  rw [BitVec.toNat_setWidth_of_le hn]
  exact x.isLt

/-- Joining the fields of an identifier gives the identifier back. -/
theorem exec_join_splitFields (high low : Word) (s : State) :
    exec (.join ((splitFields high low).time.setWidth 64) ((splitFields high low).random1.setWidth 64)
      ((splitFields high low).random2.setWidth 64)) s = .next (s.answer (.ok { ra := high, rb := low })) := by
  rw [exec_join (toNat_zeroExtend_lt (by decide) _) (toNat_zeroExtend_lt (by decide) _)
    (toNat_zeroExtend_lt (by decide) _), joinHigh_splitFields, joinLow_splitFields]

/-- Settles O29: the witnesses are the fields of the halves, and the joined halves. -/
theorem splitAndJoinUndoEachOther : Obligations.SplitAndJoinUndoEachOther := by
  unfold Obligations.SplitAndJoinUndoEachOther
  exact ⟨fun high low s => ⟨_, _, _, exec_split high low s, exec_join_splitFields high low s⟩,
    fun t r1 r2 s ht hr1 hr2 => ⟨_, _, exec_join ht hr1 hr2 s, exec_split_join ht hr1 hr2 s⟩⟩

end Sys2Proof.Proofs
end

section
/-! The radix engine: padding, five-bit groups, overflow and the way back (41_radix_engine.md). -/

namespace Sys2Proof.Proofs

open Sys2Proof.Machine

/-! ### Values of strings -/

/-- A string's value is that of its indices, a foreign character counting 0. -/
theorem fieldValue_eq_digitsValue (A : Alphabet) (s : List Byte) :
    fieldValue A s = digitsValue (s.map fun c => (A.index c).getD 0) := by
  induction s with
  | nil => rfl
  | cons c cs ih => rw [fieldValue_cons, List.map_cons, digitsValue_cons, List.length_map, ih]

theorem fieldValue_lt (A : Alphabet) (s : List Byte) : fieldValue A s < 32 ^ s.length := by
  simpa [fieldValue_eq_digitsValue] using digitsValue_lt (s.map fun c => (A.index c).getD 0)

/-- Zero symbols in front count nothing. -/
theorem fieldValue_replicate_zero_append (A : Alphabet) (n : Nat) (s : List Byte) :
    fieldValue A (List.replicate n (A.symbol 0) ++ s) = fieldValue A s := by
  rw [fieldValue_eq_digitsValue, List.map_append, digitsValue_append, List.map_replicate, index_symbol,
    Option.getD_some, digitsValue_replicate_zero, Nat.zero_mul, Nat.zero_add, ← fieldValue_eq_digitsValue]

/-! ### Padding (R111) -/

theorem b32Str_length_le {v n : Nat} (hn : 0 < n) (h : v < 32 ^ n) : (b32Str v).length ≤ n := by
  rw [b32Str, List.length_map]
  exact b32Digits_length_le hn h

/-- Settles O31: zero digits in front keep the value, and a field's values are below the power of 32 that its digits
reach. -/
theorem paddingIsOnTheLeftAndKeepsTheValue : Obligations.PaddingIsOnTheLeftAndKeepsTheValue := by
  unfold Obligations.PaddingIsOnTheLeftAndKeepsTheValue
  refine ⟨fun d w hlen => ⟨rfl, ?length, fieldValue_replicate_zero_append .num _ d⟩,
    fun v hv => b32Str_length_le (by decide) (lt_trans hv (by decide)),
    fun v hv => b32Str_length_le (by decide) (lt_of_lt_of_le hv (by decide))⟩
  case length =>
    rw [padL, List.length_append, List.length_replicate]
    omega

/-! ### Five-bit groups (R115) -/

/-- A digit is read from the value of its sequence at its place. -/
theorem digit_toNat {ds : List Digit} {j : Nat} (hj : j < ds.length) :
    (ds[j]).toNat = digitsValue ds / 32 ^ (ds.length - 1 - j) % 32 := by
  induction ds generalizing j with
  | nil => exact absurd hj (Nat.not_lt_zero j)
  | cons d ds ih =>
    have hlt := digitsValue_lt ds
    have hd : d.toNat < 32 := d.isLt
    have hpos : 0 < 32 ^ ds.length := Nat.pow_pos (by decide)
    rw [digitsValue_cons]
    cases j with
    | zero =>
      rw [List.getElem_cons_zero, List.length_cons, Nat.add_sub_cancel, Nat.sub_zero, Nat.mul_comm,
        Nat.mul_add_div hpos, Nat.div_eq_of_lt hlt, Nat.add_zero, Nat.mod_eq_of_lt hd]
    | succ j =>
      have hj' : j < ds.length := Nat.lt_of_succ_lt_succ hj
      have hplace : (d :: ds).length - 1 - (j + 1) = ds.length - 1 - j := by rw [List.length_cons]; omega
      have hpow : d.toNat * 32 ^ ds.length = 32 ^ (ds.length - 1 - j) * (32 * (d.toNat * 32 ^ j)) := by
        have hlen : ds.length = (ds.length - 1 - j) + 1 + j := by omega
        conv_lhs => rw [hlen, pow_add, pow_succ]
        ring
      rw [List.getElem_cons_succ, hplace, hpow, Nat.mul_add_div (Nat.pow_pos (by decide)), Nat.mul_add_mod, ih hj']

/-- A digit sequence is the list of the five-bit groups of its value, the most significant one first. -/
theorem eq_map_groups {ds : List Digit} {w : Nat} (hlen : ds.length = w) (group : Nat → Digit)
    (hgroup : ∀ j < w, (group j).toNat = digitsValue ds / 2 ^ (5 * (w - 1 - j)) % 32) :
    ds = (List.range w).map group := by
  subst hlen
  refine List.ext_getElem (by simp) fun j hj _ => ?_
  have h32 : (2 : Nat) ^ (5 * (ds.length - 1 - j)) = 32 ^ (ds.length - 1 - j) := pow_mul 2 5 _
  rw [List.getElem_map, List.getElem_range]
  exact BitVec.eq_of_toNat_eq (by rw [digit_toNat hj, hgroup j hj, h32])

/-- The W digits of a value that fits the field. -/
theorem length_fixedDigits_chars {sh : Shape} {v : Nat} (h : v < 2 ^ sh.fieldBits) :
    (fixedDigits sh.chars v).length = sh.chars :=
  fixedDigits_length (by cases sh <;> decide) (lt_of_lt_of_le h (two_pow_fieldBits_le sh))

@[simp] theorem digitsValue_fixedDigits_word (w : Nat) (v : Word) : digitsValue (fixedDigits w v.toNat) = v.toNat :=
  fixedDigits_value (lt_trans v.isLt (by decide))

theorem exec_toDig {sh : Shape} {v : Word} (h : v.toNat < 2 ^ sh.fieldBits) (s : State) :
    exec (.toDig sh v) s =
      .next (s.answer (.ok { r := (fixedDigits sh.chars v.toNat).map Alphabet.num.symbol })) := by
  rw [exec_eq, opOf, opToDig_digits h, finish_ok]

/-- The five bits of a word from position `lo` upwards. -/
theorem toNat_fiveBits (v : Word) (lo : Nat) :
    (((v >>> lo) &&& 0x1F).setWidth 5).toNat = v.toNat / 2 ^ lo % 32 := by
  rw [BitVec.toNat_setWidth]
  refine (congrArg (· % 2 ^ 5) (toNat_and_mask (n := 5) (by decide) _)).trans ?_
  simp only [Nat.mod_mod, BitVec.toNat_ushiftRight, Nat.shiftRight_eq_div_pow, Nat.reducePow]

/-- Settles O34: the digits have the value `v`, so each is the five-bit group of `v` at its place. -/
theorem toDigIsSlicing : Obligations.ToDigIsSlicing := by
  unfold Obligations.ToDigIsSlicing
  intro sh v s h
  rw [exec_toDig h, eq_map_groups (length_fixedDigits_chars h)
    (fun j => ((v >>> (5 * (sh.chars - 1 - j))) &&& 0x1F).setWidth 5)
    (fun j _ => by rw [digitsValue_fixedDigits_word, toNat_fiveBits]), List.map_map]
  rfl

/-! ### When a field overflows (R114) -/

/-- In both alphabets the digits below 8 have the characters `0` to `7`. -/
theorem symbol_range_iff (A : Alphabet) (d : Digit) :
    0x30 ≤ (A.symbol d).toNat ∧ (A.symbol d).toNat ≤ 0x37 ↔ d.toNat < 8 := by
  revert d
  cases A <;> decide

/-- Of ten digits the first counts `32 ^ 9`, an eighth of `2 ^ 48`. -/
theorem two_pow_48_le_digitsValue_cons_iff {d : Digit} {ds : List Digit} (hlen : ds.length = 9) :
    2 ^ 48 ≤ digitsValue (d :: ds) ↔ 8 ≤ d.toNat := by
  have hlt : digitsValue ds < 32 ^ 9 := hlen ▸ digitsValue_lt ds
  rw [digitsValue_cons, hlen]
  omega

/-- Settles O36: eight digits have a value below `32 ^ 8 = 2 ^ 40`, and of ten the first decides. -/
theorem firstDigitDecidesTheOverflow : Obligations.FirstDigitDecidesTheOverflow := by
  unfold Obligations.FirstDigitDecidesTheOverflow
  refine ⟨fun A d hlen => ?eight, fun A d hlen hover => ?ten⟩
  case eight =>
    have hlt := fieldValue_lt A d
    rw [hlen] at hlt
    exact lt_of_lt_of_le hlt (by decide)
  case ten =>
    obtain ⟨ds, rfl⟩ := exists_spelling_of_over hover
    cases ds with
    | nil => simp at hlen
    | cons g ds =>
      have hrest : ds.length = 9 := by simpa using hlen
      rw [fieldValue_spelling, two_pow_48_le_digitsValue_cons_iff hrest, List.map_cons, List.getD_cons_zero,
        index_symbol, symbol_range_iff, Nat.not_lt]
      exact ⟨by simp, Iff.rfl⟩

/-! ### TODIG and FROMDIG undo each other (R117) -/

/-- A host presents a string that fits in the cells whole. -/
theorem ofString_of_length_le {str : List Byte} (h : str.length ≤ 26) :
    StrOperand.ofString str = { slen := BitVec.ofNat 8 str.length, cells := str } := by
  rw [StrOperand.ofString, min_eq_left (by omega), List.take_of_length_le h]

theorem toNat_slen_of_length_le {n : Nat} (h : n ≤ 26) : (BitVec.ofNat 8 n).toNat = n := by
  rw [BitVec.toNat_ofNat]
  omega

theorem two_pow_fieldBits_le_word (sh : Shape) : 2 ^ sh.fieldBits ≤ 2 ^ 64 := by
  cases sh <;> decide

/-- FROMDIG of W digits whose value fits the field. -/
theorem exec_fromDig_spelling {sh : Shape} {ds : List Digit} (hlen : ds.length = sh.chars)
    (hfits : digitsValue ds < 2 ^ sh.fieldBits) (s : State) :
    exec (.fromDig sh (StrOperand.ofString (ds.map Alphabet.num.symbol))) s =
      .next (s.answer (.ok { ra := BitVec.ofNat 64 (digitsValue ds) })) := by
  have hstr : (ds.map Alphabet.num.symbol).length = sh.chars := by rw [List.length_map, hlen]
  have hle : sh.chars ≤ 26 := chars_le_strCells sh
  rw [exec_eq, opOf, ofString_of_length_le (hstr ▸ hle), hstr,
    opFromDig_spelling _ _ (toNat_slen_of_length_le hle), if_neg (Nat.not_le_of_lt hfits), finish_ok]

/-- FROMDIG gives a value back from its W digits. -/
theorem exec_fromDig_fixedDigits {sh : Shape} {v : Word} (hfits : v.toNat < 2 ^ sh.fieldBits) (s : State) :
    exec (.fromDig sh (StrOperand.ofString ((fixedDigits sh.chars v.toNat).map Alphabet.num.symbol))) s =
      .next (s.answer (.ok { ra := v })) := by
  have hvalue := digitsValue_fixedDigits_word sh.chars v
  rw [exec_fromDig_spelling (length_fixedDigits_chars hfits) (hvalue.trans_lt hfits), hvalue, BitVec.ofNat_toNat,
    BitVec.setWidth_eq]

/-- Settles O37: W digits are determined by their value, so converting and parsing are inverse to each other. -/
theorem toDigAndFromDigUndoEachOther : Obligations.ToDigAndFromDigUndoEachOther := by
  unfold Obligations.ToDigAndFromDigUndoEachOther
  refine ⟨fun sh v s hfits => ⟨_, exec_toDig hfits s, exec_fromDig_fixedDigits hfits s⟩,
    fun sh d s hlen hover hfits => ?digits⟩
  case digits =>
    obtain ⟨ds, rfl⟩ := exists_spelling_of_over hover
    rw [List.length_map] at hlen
    rw [fieldValue_spelling] at hfits
    have hword : (BitVec.ofNat 64 (digitsValue ds)).toNat = digitsValue ds := by
      rw [BitVec.toNat_ofNat, Nat.mod_eq_of_lt (lt_of_lt_of_le hfits (two_pow_fieldBits_le_word sh))]
    have hdigits : fixedDigits sh.chars (digitsValue ds) = ds :=
      hlen ▸ fixedDigits_digitsValue (by rw [hlen]; cases sh <;> decide) (by rw [hlen]; cases sh <;> decide)
    refine ⟨_, exec_fromDig_spelling hlen hfits s, ?_⟩
    rw [exec_toDig (hword.trans_lt hfits), hword, hdigits]

end Sys2Proof.Proofs
end

section
/-! The look-ups of the tables, and the transliterator (10_state.md section 2, 42_transliterator.md section 3). -/

namespace Sys2Proof.Proofs

open Sys2Proof.Machine

/-! ### The look-ups (R24) -/

theorem index_eq_some_iff {A : Alphabet} {c : Byte} {d : Digit} : A.index c = some d ↔ A.symbol d = c := by
  constructor
  · exact symbol_of_index
  · rintro rfl
    exact index_symbol A d

theorem index_eq_none_iff {A : Alphabet} {c : Byte} : A.index c = none ↔ ∀ d : Digit, A.symbol d ≠ c := by
  simp only [Option.eq_none_iff_forall_ne_some, ne_eq, index_eq_some_iff]

/-- The symbols of an alphabet are the entries of its table. -/
theorem isSymbol_iff_mem_table {A : Alphabet} {c : Byte} : A.isSymbol c = true ↔ c ∈ A.table := by
  rw [isSymbol_iff, List.mem_iff_getElem?]
  constructor
  · rintro ⟨d, rfl⟩
    exact ⟨d.toNat, table_getElem?_digit A d⟩
  · rintro ⟨n, hn⟩
    obtain ⟨hlt, rfl⟩ := List.getElem?_eq_some_iff.mp hn
    refine ⟨BitVec.ofNat 5 n, ?_⟩
    have hlt' : n < 2 ^ 5 := by simpa using hlt
    simp only [symbol_eq_getElem, BitVec.toNat_ofNat, Nat.mod_eq_of_lt hlt']

/-- NUM runs through the codes from `0` and then, ten digits on, from `a` (R23). -/
theorem num_symbol_toNat (d : Digit) :
    (Alphabet.num.symbol d).toNat = if d.toNat < 10 then 0x30 + d.toNat else 0x57 + d.toNat := by
  revert d
  decide

/-- The codes of NUM are two intervals, of ten and of 22 codes. -/
theorem isSymbol_num_iff (c : Byte) :
    Alphabet.num.isSymbol c = true ↔
      (0x30 ≤ c.toNat ∧ c.toNat ≤ 0x39) ∨ (0x61 ≤ c.toNat ∧ c.toNat ≤ 0x76) := by
  rw [isSymbol_iff]
  constructor
  · rintro ⟨d, rfl⟩
    have hd : d.toNat < 32 := d.isLt
    rw [num_symbol_toNat]
    split <;> omega
  · rintro (h | h)
    · refine ⟨BitVec.ofNat 5 (c.toNat - 0x30), BitVec.eq_of_toNat_eq ?_⟩
      rw [num_symbol_toNat, BitVec.toNat_ofNat, Nat.mod_eq_of_lt (by omega), if_pos (by omega)]
      omega
    · refine ⟨BitVec.ofNat 5 (c.toNat - 0x57), BitVec.eq_of_toNat_eq ?_⟩
      rw [num_symbol_toNat, BitVec.toNat_ofNat, Nat.mod_eq_of_lt (by omega), if_neg (by omega)]
      omega

/-- Settles O39: the look-up is the inverse of the table, and the symbols are the entries, all below 0x80. -/
theorem inverseLookUpsInvertTheTables : Obligations.InverseLookUpsInvertTheTables := by
  unfold Obligations.InverseLookUpsInvertTheTables
  refine ⟨fun _ _ _ => index_eq_some_iff, fun _ _ => index_eq_none_iff, isSymbol_num_iff,
    fun _ => isSymbol_iff_mem_table, fun A c hc => ?ascii⟩
  case ascii =>
    have hlow : ∀ x ∈ A.table, x.toNat < 0x80 := by cases A <;> decide
    rw [Bool.eq_false_iff, ne_eq, isSymbol_iff_mem_table]
    exact fun hmem => Nat.not_le_of_lt (hlow c hmem) hc

/-! ### One character by code offsets (R137) -/

theorem xlit_singleton (c : Byte) (A1 A2 : Alphabet) :
    xlit [c] A1 A2 = ((A1.index c).map A2.symbol).map fun x => [x] := by
  simp only [xlit, List.mapM_cons, List.mapM_nil]
  cases A1.index c <;> rfl

theorem xlitCode_symbol (d : Digit) : xlitCode (Alphabet.num.symbol d) = some (Alphabet.crock.symbol d) := by
  revert d
  decide

/-- The code offsets are XLIT on one code: they give the CROCK symbol of the same digit, and their intervals are those
of NUM. -/
theorem xlitCode_eq (c : Byte) : xlitCode c = (Alphabet.num.index c).map Alphabet.crock.symbol := by
  cases h : Alphabet.num.index c with
  | some d =>
    obtain rfl := symbol_of_index h
    exact xlitCode_symbol d
  | none =>
    have hforeign := mt (isSymbol_num_iff c).mpr (by simp [Alphabet.isSymbol, h])
    simp (disch := omega) only [xlitCode, if_neg, Option.map_none]

theorem xlit_singleton_eq_some_iff {A1 A2 : Alphabet} {c x : Byte} :
    xlit [c] A1 A2 = some [x] ↔ ∃ d : Digit, A1.symbol d = c ∧ A2.symbol d = x := by
  simp [xlit_singleton, index_eq_some_iff]

/-- Settles O44: one direction is the table of offsets, and both directions relate the symbols of one digit. -/
theorem transliterationByCodeOffsets : Obligations.TransliterationByCodeOffsets := by
  unfold Obligations.TransliterationByCodeOffsets
  refine ⟨fun c => by rw [xlit_singleton, xlitCode_eq], fun c x => ?inverse⟩
  case inverse =>
    rw [xlit_singleton_eq_some_iff, xlitCode_eq]
    simp only [Option.map_eq_some_iff, index_eq_some_iff, and_comm]

/-! ### Strings (R133 to R135) -/

section
variable {ds : List Digit} (hlen : ds.length ≤ 26) (s : State)
include hlen

theorem exec_xlitF_spelling :
    exec (.xlitF (StrOperand.ofString (ds.map Alphabet.num.symbol))) s =
      .next (s.answer (.ok { r := ds.map Alphabet.crock.symbol })) := by
  rw [exec_eq, opOf, ofString_of_length_le (by rwa [List.length_map]), List.length_map,
    opXlitF_spelling _ _ ((toNat_slen_of_length_le hlen).trans_le hlen), finish_ok]

theorem exec_xlitR_spelling :
    exec (.xlitR (StrOperand.ofString (ds.map Alphabet.crock.symbol))) s =
      .next (s.answer (.ok { r := ds.map Alphabet.num.symbol })) := by
  rw [exec_eq, opOf, ofString_of_length_le (by rwa [List.length_map]), List.length_map,
    opXlitR_spelling _ _ ((toNat_slen_of_length_le hlen).trans_le hlen), finish_ok]

end

/-- Settles O43: both operations respell one digit sequence, and its value is that of both spellings. -/
theorem transliterationsUndoEachOtherAndKeepTheValue :
    Obligations.TransliterationsUndoEachOtherAndKeepTheValue := by
  unfold Obligations.TransliterationsUndoEachOtherAndKeepTheValue
  refine ⟨fun str s hlen hover => ?num, fun str s hlen hover => ?crock⟩
  all_goals
    obtain ⟨ds, rfl⟩ := exists_spelling_of_over hover
    rw [List.length_map] at hlen
  case num => exact ⟨_, exec_xlitF_spelling hlen s, exec_xlitR_spelling hlen s,
    (fieldValue_spelling _ _).trans (fieldValue_spelling _ _).symm⟩
  case crock => exact ⟨_, exec_xlitR_spelling hlen s, exec_xlitF_spelling hlen s,
    (fieldValue_spelling _ _).trans (fieldValue_spelling _ _).symm⟩

/-- Settles O45: all the strings are spellings, and spellings of one length compare as the values of their digits. -/
theorem digitStringsCompareAsTheirValues : Obligations.DigitStringsCompareAsTheirValues := by
  unfold Obligations.DigitStringsCompareAsTheirValues
  refine ⟨fun sh u v s hu hv => ⟨_, _, exec_toDig hu s, exec_toDig hv s, ?toDig⟩, fun a b ta tb hlen ha hb => ?strings⟩
  case toDig =>
    rw [textBefore_spelling_iff _ (by rw [length_fixedDigits_chars hu, length_fixedDigits_chars hv]),
      digitsValue_fixedDigits_word, digitsValue_fixedDigits_word]
  case strings =>
    obtain ⟨ds, rfl, rfl⟩ := exists_spelling_of_xlit_eq_some ha
    obtain ⟨es, rfl, rfl⟩ := exists_spelling_of_xlit_eq_some hb
    rw [List.length_map, List.length_map] at hlen
    simp only [textBefore_spelling_iff _ hlen, fieldValue_spelling, and_self]

end Sys2Proof.Proofs
end

section
/-! The fused datapaths, the accepted strings and the units of the codec (43_codec.md). -/

namespace Sys2Proof.Proofs

open Sys2Proof.Machine

/-! ### ENCODE by the fused datapath (R151) -/

section
variable (high low : Word)

theorem extendedId_toNat : (extendedId high low).toNat = idValue high low := by
  rw [extendedId, toNat_append_eq_add, toNat_append_eq_add, idValue]
  simp

theorem idGroup_toNat (i : Nat) : (idGroup high low i).toNat = idValue high low / 2 ^ (125 - 5 * i) % 32 := by
  rw [idGroup, toNat_slice, extendedId_toNat]
  rfl

theorem fusedText_eq : fusedText high low = idText high low := by
  have hgroups : idDigits high low = (List.range 26).map (idGroup high low) :=
    eq_map_groups (idDigits_length high low) _ fun j _ => by
      have hplace : 5 * (26 - 1 - j) = 125 - 5 * j := by omega
      rw [digitsValue_idDigits, idGroup_toNat, hplace]
  rw [idText, hgroups, List.map_map]
  rfl

end

/-- Settles O47: the digits of an identifier are the five-bit groups of its value. -/
theorem encodeEqualsTheFusedDatapath : Obligations.EncodeEqualsTheFusedDatapath := by
  unfold Obligations.EncodeEqualsTheFusedDatapath
  intro high low s
  rw [fusedText_eq]
  exact ⟨exec_encode high low s, fun i _ => idGroup_toNat high low i⟩

/-! ### DECODE by the fused datapath (R153) -/

/-- One step of the concatenation drops nothing while the value fits in the 130 bits. -/
theorem toNat_shiftLeft_five_or {acc : BitVec 130} {d : Digit} (h : acc.toNat * 32 + d.toNat < 2 ^ 130) :
    (acc <<< 5 ||| d.setWidth 130).toNat = acc.toNat * 32 + d.toNat := by
  have hshift : acc.toNat <<< 5 < 2 ^ 130 := by
    rw [Nat.shiftLeft_eq]
    omega
  rw [BitVec.toNat_or, BitVec.toNat_shiftLeft, BitVec.toNat_setWidth_of_le (by decide), Nat.mod_eq_of_lt hshift,
    ← Nat.shiftLeft_add_eq_or_of_lt d.isLt, Nat.shiftLeft_eq]

theorem concatDigits_concat (ds : List Digit) (d : Digit) :
    concatDigits (ds ++ [d]) = concatDigits ds <<< 5 ||| d.setWidth 130 := by
  rw [concatDigits, List.foldl_append]
  rfl

/-- Digits put side by side have their value when the 130 bits hold it. -/
theorem concatDigits_toNat {ds : List Digit} (h : digitsValue ds < 2 ^ 130) :
    (concatDigits ds).toNat = digitsValue ds := by
  induction ds using List.reverseRecOn with
  | nil => rfl
  | append_singleton ds d ih =>
    have hvalue : digitsValue (ds ++ [d]) = digitsValue ds * 32 + d.toNat := by simp [digitsValue_append]
    rw [hvalue] at h ⊢
    have hds := ih (by omega)
    rw [concatDigits_concat, toNat_shiftLeft_five_or (by rwa [hds]), hds]

theorem slice_eq_ofNat {n : Nat} (lo w : Nat) (x : BitVec n) :
    x.extractLsb' lo w = BitVec.ofNat w (x.toNat / 2 ^ lo) :=
  BitVec.eq_of_toNat_eq (by rw [toNat_slice, BitVec.toNat_ofNat])

theorem topBits_eq_zero_iff {x : BitVec 130} : x.extractLsb' 128 2 = 0 ↔ x.toNat < 2 ^ 128 := by
  have hx := x.isLt
  have hzero : (0 : BitVec 2).toNat = 0 := rfl
  rw [← BitVec.toNat_inj, toNat_slice, hzero]
  omega

section
variable {ds : List Digit} (hlen : ds.length = 26)
include hlen

theorem digitsValue_lt_two_pow_130 : digitsValue ds < 2 ^ 130 := by
  have hlt := digitsValue_lt ds
  rw [hlen] at hlt
  exact lt_of_lt_of_le hlt (by decide)

/-- 26 digits with a value below `2 ^ 128` are those of an identifier. -/
theorem exists_eq_idDigits (h : digitsValue ds < 2 ^ 128) : ∃ high low, ds = idDigits high low := by
  obtain ⟨high, low, htext⟩ := accepted_iff.mp ((accepted_spelling_iff hlen).mpr h)
  exact ⟨high, low, spelling_inj.mp htext⟩

/-- With a greater value the ten digits of the timestamp already overflow: the others count less than `2 ^ 80`. -/
theorem opDecode_overflow {l : BitVec 8} (hl : l.toNat = 26) (h : 2 ^ 128 ≤ digitsValue ds) :
    opDecode { slen := l, cells := ds.map Alphabet.crock.symbol } = raise .fieldOverflow 0 := by
  have hrest : (ds.drop 10).length = 16 := by simp [hlen]
  have hvalue := digitsValue_append (ds.take 10) (ds.drop 10)
  have hlt := digitsValue_lt (ds.drop 10)
  rw [List.take_append_drop, hrest] at hvalue
  rw [hrest] at hlt
  rw [opDecode_spelling l ds hl, if_pos (by omega)]

theorem fusedDecode_spelling {l : BitVec 8} (hl : l.toNat = 26) :
    fusedDecode { slen := l, cells := ds.map Alphabet.crock.symbol } =
      if 2 ^ 128 ≤ digitsValue ds then raise .fieldOverflow 0
      else .ok { ra := BitVec.ofNat 64 (digitsValue ds / 2 ^ 64), rb := BitVec.ofNat 64 (digitsValue ds) } := by
  have hx := concatDigits_toNat (digitsValue_lt_two_pow_130 hlen)
  rw [fusedDecode, if_neg (not_not.mpr hl)]
  simp only [mapM_index_spelling]
  rw [slice_eq_ofNat 64, slice_eq_ofNat 0, hx, pow_zero, Nat.div_one]
  exact if_congr (by rw [ne_eq, topBits_eq_zero_iff, hx, Nat.not_lt]) rfl rfl

end

/-- Of the digits of an identifier the top two bits are 0 and the others are the two halves. -/
theorem fusedDecode_idText {l : BitVec 8} (hl : l.toNat = 26) (high low : Word) :
    fusedDecode { slen := l, cells := idText high low } = .ok { ra := high, rb := low } := by
  have hhigh := high.isLt
  have hlow := low.isLt
  have hra : BitVec.ofNat 64 (idValue high low / 2 ^ 64) = high := BitVec.eq_of_toNat_eq (by
    rw [BitVec.toNat_ofNat, idValue]
    omega)
  have hrb : BitVec.ofNat 64 (idValue high low) = low := BitVec.eq_of_toNat_eq (by
    rw [BitVec.toNat_ofNat, idValue]
    omega)
  rw [idText, fusedDecode_spelling (idDigits_length high low) hl, digitsValue_idDigits,
    if_neg (Nat.not_le_of_lt (idValue_lt high low)), hra, hrb]

theorem fusedDecode_length {t : StrOperand} (h : t.slen.toNat ≠ 26) : fusedDecode t = raise .invalidLength 0 :=
  if_pos h

theorem fusedDecode_character {t : StrOperand} (h : t.slen.toNat = 26) (hb : ¬ Over .crock t.cells) :
    fusedDecode t = raise .invalidCharacter (firstBad .crock t.cells) := by
  simp only [fusedDecode, h, mapM_index_eq_none hb]
  rfl

/-- Settles O49: the two agree on a wrong length, on a foreign character, on 26 digits of `2 ^ 128` or more, and on
those of an identifier. -/
theorem decodeEqualsTheFusedDatapath : Obligations.DecodeEqualsTheFusedDatapath := by
  unfold Obligations.DecodeEqualsTheFusedDatapath
  intro text s hwf
  rw [exec_eq_answer_iff, opOf]
  refine congrArg finish ?_
  by_cases hlen : text.slen.toNat = 26
  · by_cases hover : Over .crock text.cells
    · have hcells : text.cells.length = 26 := (length_cells_of_wf hwf hlen.le).trans hlen
      obtain ⟨l, cells⟩ := text
      obtain ⟨ds, rfl⟩ := exists_spelling_of_over hover
      rw [List.length_map] at hcells
      rcases Nat.lt_or_ge (digitsValue ds) (2 ^ 128) with hid | hbig
      · obtain ⟨high, low, rfl⟩ := exists_eq_idDigits hcells hid
        exact (opDecode_idText hlen high low).trans (fusedDecode_idText hlen high low).symm
      · rw [opDecode_overflow hcells hlen hbig, fusedDecode_spelling hcells hlen, if_pos hbig]
    · rw [opDecode_character hlen hover, fusedDecode_character hlen hover]
  · rw [opDecode_length hlen, fusedDecode_length hlen]

/-! ### The accepted strings (R155) -/

/-- Settles O50: the texts are accepted strings; and 26 zeros with any symbol at a position behind the first are
accepted, so they are the text of an identifier. -/
theorem encodedTextsBeginWithZeroToSeven : Obligations.EncodedTextsBeginWithZeroToSeven := by
  unfold Obligations.EncodedTextsBeginWithZeroToSeven
  refine ⟨fun high low s => ⟨_, exec_encode high low s, ?first⟩, fun i d s hpos hi => ?others⟩
  case first =>
    obtain ⟨-, -, hfirst⟩ := accepted_iff.mpr ⟨high, low, rfl⟩
    exact hfirst
  case others =>
    have hzero : (((List.replicate 26 0).set i d).map Alphabet.crock.symbol).getD 0 0 = Alphabet.crock.symbol 0 := by
      rw [List.getD_eq_getElem?_getD, List.getElem?_map, List.getElem?_set_ne (by omega)]
      rfl
    have hacc : Accepted (((List.replicate 26 0).set i d).map Alphabet.crock.symbol) :=
      ⟨by simp, over_spelling _ _, hzero ▸ (symbol_range_iff .crock 0).mpr (by decide)⟩
    obtain ⟨high, low, htext⟩ := accepted_iff.mp hacc
    refine ⟨high, low, _, exec_encode high low s, ?_⟩
    rw [← htext, List.getElem?_map, List.getElem?_set_self (by simpa using hi), Option.map_some]

/-- A longer or shorter string does not get the length 26, even where `slen` or the cells cut it (30_encoding.md
R63). -/
theorem toNat_slen_ofString_ne {str : List Byte} (h : str.length ≠ 26) : (StrOperand.ofString str).slen.toNat ≠ 26 := by
  rw [StrOperand.ofString, BitVec.toNat_ofNat]
  omega

/-- A string that is not accepted has another length, a foreign character, or a value of `2 ^ 128` or more. -/
theorem opDecode_not_accepted {str : List Byte} (h : ¬ Accepted str) :
    opDecode (StrOperand.ofString str) = raise .invalidLength 0 ∨
    opDecode (StrOperand.ofString str) = raise .invalidCharacter (firstBad .crock str) ∨
    opDecode (StrOperand.ofString str) = raise .fieldOverflow 0 := by
  by_cases hlen : str.length = 26
  · rw [ofString_of_length hlen]
    by_cases hover : Over .crock str
    · obtain ⟨ds, rfl⟩ := exists_spelling_of_over hover
      rw [List.length_map] at hlen
      have hbig : 2 ^ 128 ≤ digitsValue ds := Nat.le_of_not_lt (mt (accepted_spelling_iff hlen).mpr h)
      exact .inr (.inr (opDecode_overflow hlen rfl hbig))
    · exact .inr (.inl (opDecode_character rfl hover))
  · exact .inl (opDecode_length (toNat_slen_ofString_ne hlen))

/-- DECODE gives an identifier back from its text, so no two have the same. -/
theorem idText_injective : Function.Injective fun x : Word × Word => idText x.1 x.2 := by
  rintro ⟨high, low⟩ ⟨high', low'⟩ h
  have hdecode : (.ok { ra := high, rb := low } : Op Result) = .ok { ra := high', rb := low' } := by
    rw [← opDecode_idText (l := 26) rfl high low, ← opDecode_idText (l := 26) rfl high' low']
    exact congrArg (fun text => opDecode { slen := 26, cells := text }) h
  cases hdecode
  rfl

/-- Settles O51: the accepted strings are the texts of the identifiers, which DECODE gives back; every other string
has one of the three causes. -/
theorem decodeAcceptsExactlyTheAcceptedStrings : Obligations.DecodeAcceptsExactlyTheAcceptedStrings := by
  unfold Obligations.DecodeAcceptsExactlyTheAcceptedStrings
  refine ⟨fun str s => ⟨fun h => ?accepted, fun h => ?rejected⟩,
    ⟨fun x => idText x.1 x.2, exec_encode, idText_injective, fun str => ?image⟩, by decide⟩
  case accepted =>
    obtain ⟨high, low, rfl⟩ := accepted_iff.mp h
    exact ⟨high, low, exec_decode_idText high low s⟩
  case rejected =>
    simp only [exec_eq_answer_iff, opOf]
    obtain herr | herr | herr := opDecode_not_accepted h
    · exact ⟨_, congrArg finish herr, .inl rfl⟩
    · exact ⟨_, congrArg finish herr, .inr (.inl rfl)⟩
    · exact ⟨_, congrArg finish herr, .inr (.inr rfl)⟩
  case image =>
    rw [accepted_iff, Prod.exists]
    simp only [eq_comm]

/-! ### The order of the identifiers (R159) -/

/-- Settles O56: the texts spell 26 digits with the values of the identifiers. -/
theorem textsCompareAsIdentifiers : Obligations.TextsCompareAsIdentifiers := by
  unfold Obligations.TextsCompareAsIdentifiers
  intro high1 low1 high2 low2 s
  refine ⟨_, _, exec_encode high1 low1 s, exec_encode high2 low2 s, ?_⟩
  rw [idText, idText, textBefore_spelling_iff _ (by simp), digitsValue_idDigits, digitsValue_idDigits, idValue, idValue]

/-! ### The codec from the units (R162) -/

section
variable {sh : Shape} (x : BitVec sh.fieldBits) (s : State)

theorem toNat_field : (x.setWidth 64).toNat = x.toNat :=
  BitVec.toNat_setWidth_of_le (by cases sh <;> decide)

/-- TODIG of a field, zero-extended. -/
theorem exec_toDig_field :
    exec (.toDig sh (x.setWidth 64)) s =
      .next (s.answer (.ok { r := (fixedDigits sh.chars x.toNat).map Alphabet.num.symbol })) := by
  rw [exec_toDig ((toNat_field x).trans_lt x.isLt), toNat_field]

/-- FROMDIG of the digits of a field gives the field, zero-extended. -/
theorem exec_fromDig_field :
    exec (.fromDig sh (StrOperand.ofString ((fixedDigits sh.chars x.toNat).map Alphabet.num.symbol))) s =
      .next (s.answer (.ok { ra := x.setWidth 64 })) := by
  rw [← toNat_field x]
  exact exec_fromDig_fixedDigits ((toNat_field x).trans_lt x.isLt) s

end

/-- The three substrings that DECODE cuts out of a text spell the digits of the three fields. -/
theorem substr_idText (high low : Word) :
    substr (idText high low) 0 10 = (timeDigits high low).map Alphabet.crock.symbol ∧
    substr (idText high low) 10 18 = (random1Digits high low).map Alphabet.crock.symbol ∧
    substr (idText high low) 18 26 = (random2Digits high low).map Alphabet.crock.symbol := by
  rw [idText, substr_spelling, substr_spelling, substr_spelling, idDigits]
  refine ⟨congrArg _ ?time, congrArg _ ?random1, congrArg _ ?random2⟩
  case time | random1 | random2 => simp [List.drop_append, List.drop_of_length_le]

/-- Settles O59: every unit answers the digits, the spelling or the field that the next one needs. -/
theorem codecIsComposedOfTheUnits : Obligations.CodecIsComposedOfTheUnits := by
  unfold Obligations.CodecIsComposedOfTheUnits
  refine ⟨fun high low s => ?encode, fun text s h => ?decode⟩
  case encode =>
    refine ⟨_, _, _, _, _, _, _, _, _, exec_split high low s, exec_toDig_field (sh := .T) _ s,
      exec_toDig_field (sh := .R) _ s, exec_toDig_field (sh := .R) _ s,
      exec_xlitF_spelling (ds := timeDigits high low) (by simp) s,
      exec_xlitF_spelling (ds := random1Digits high low) (by simp) s,
      exec_xlitF_spelling (ds := random2Digits high low) (by simp) s, ?_⟩
    rw [exec_encode, idText, idDigits, List.map_append, List.map_append]
  case decode =>
    obtain ⟨high, low, rfl⟩ := accepted_iff.mp h
    obtain ⟨htime, hr1, hr2⟩ := substr_idText high low
    rw [htime, hr1, hr2]
    exact ⟨_, _, _, _, _, _, high, low, exec_xlitR_spelling (by simp) s, exec_xlitR_spelling (by simp) s,
      exec_xlitR_spelling (by simp) s, exec_fromDig_field (sh := .T) _ s, exec_fromDig_field (sh := .R) _ s,
      exec_fromDig_field (sh := .R) _ s, exec_join_splitFields high low s, exec_decode_idText high low s⟩

end Sys2Proof.Proofs
end

section
/-! What steps, runs and systems of instances do (20_memory.md section 5, 60_exceptions.md section 4,
70_reset_and_hazards.md). -/

namespace Sys2Proof.Proofs

open Sys2Proof.Machine

/-! ### One step -/

/-- A step on a request runs it from the state without that action. -/
theorem step_of_request {s : State} {q : ReqWord} {rest : List HostEvent} (h : s.events = .request q :: rest) :
    step s = .next ({ s with events := rest }.answer (responseOf q)) := by
  obtain ⟨es, p, d⟩ := s
  obtain rfl : es = .request q :: rest := h
  exact step_request q rest p d

/-- Settles O8: the response that a step adds is that of the decoded instruction, or IllegalOp when there is none. -/
theorem stepRunsTheDecodedInstruction : Obligations.StepRunsTheDecodedInstruction := by
  unfold Obligations.StepRunsTheDecodedInstruction
  intro s q rest h
  refine ⟨fun i hi => ?_, fun e he => ?_⟩
  · rw [step_of_request h, responseOf_of_ok hi, exec_eq]
  · rw [step_of_request h, responseOf_of_error he]

/-- Settles O9: the step equations of the two port actions and of waiting. -/
theorem portActionsWithoutARequest : Obligations.PortActionsWithoutARequest := by
  unfold Obligations.PortActionsWithoutARequest
  refine ⟨fun rest r p d => step_take rest (r :: p) d, fun rest d => ?nothing, step_reset, step_idle⟩
  case nothing =>
    rw [step_take, List.head?_nil, Option.toList_none, List.append_nil, List.tail_nil]

/-- Settles O10: the state that a reset leads to has nothing pending, and a request is answered with its
`responseOf` in every state. -/
theorem resetLeavesNoResponsePending : Obligations.ResetLeavesNoResponsePending := by
  unfold Obligations.ResetLeavesNoResponsePending
  refine ⟨rfl, rfl, rfl, fun s rest h => ?_⟩
  obtain ⟨es, p, d⟩ := s
  obtain rfl : es = .reset :: rest := h
  refine ⟨_, step_reset rest p d, rfl, rfl, rfl, rfl, fun q r hr => ?_⟩
  obtain rfl : responseOf q = r := by simpa using hr
  exact step_present _ q

/-- With a response pending, the port shows the oldest one, whatever stands behind it. -/
theorem rspPort_of_pending {s : State} {r : Response} {p : List Response} (h : s.pending = r :: p) :
    s.rspPort = some r.toRsp := by
  rw [State.rspPort, h, List.head?_cons, Option.map_some]

/-- Settles O11: by the four things a step can do. Waiting and a request leave the oldest pending response where it
is, and a take moves it to the delivered ones. -/
theorem responsePortIsHeldUntilDelivery : Obligations.ResponsePortIsHeldUntilDelivery := by
  unfold Obligations.ResponsePortIsHeldUntilDelivery
  intro s t hvalid h
  obtain ⟨r, p, hp⟩ : ∃ r p, s.pending = r :: p := List.exists_cons_of_ne_nil (by simpa [State.rspValid] using hvalid)
  have hport := rspPort_of_pending hp
  rw [hport]
  obtain ⟨hes, rfl⟩ | ⟨q, es, hes, rfl⟩ | ⟨es, hes, rfl⟩ | ⟨es, hes, rfl⟩ := step_cases h
  · exact ⟨fun _ _ => ⟨hport, rfl⟩, fun hready => by simp [State.rspReady, hes] at hready⟩
  · refine ⟨fun _ _ => ⟨rspPort_of_pending (p := p ++ [responseOf q]) ?_, rfl⟩, fun hready => ?_⟩
    · rw [hp, List.cons_append]
    · simp [State.rspReady, hes] at hready
  · refine ⟨fun hready => ?_, fun _ => ⟨r, rfl, ?_, rfl⟩⟩
    · simp [State.rspReady, hes] at hready
    · rw [hp, List.head?_cons, Option.toList_some]
  · exact ⟨fun _ hreset => absurd (by rw [hes, List.head?_cons]) hreset,
      fun hready => by simp [State.rspReady, hes] at hready⟩

/-- Settles O13: `exec_eq` says that every meaning is one `answer`, and `answer` changes `pending` alone. -/
theorem everyOperationOnlyAppendsItsResponse : Obligations.EveryOperationOnlyAppendsItsResponse := by
  unfold Obligations.EveryOperationOnlyAppendsItsResponse
  intro i s t h
  rw [exec_eq] at h
  cases h
  exact ⟨answer_events _ _, answer_delivered _ _, _, answer_pending _ _⟩

/-! ### Legal responses -/

section
variable {res : Result}

theorem legal_of_no_string (h : res.r = []) : (Response.ok res).Legal := by
  refine ⟨?_, .inl ?_⟩ <;> simp [Over, h]

theorem legal_of_spelling (A : Alphabet) {ds : List Digit} (hlen : ds.length ≤ 26) :
    (Response.ok { r := ds.map A.symbol }).Legal := by
  refine ⟨by simpa using hlen, ?_⟩
  cases A with
  | num => exact .inl (over_spelling _ ds)
  | crock => exact .inr (over_spelling _ ds)

end

/-- What a transliteration answers is legal: no string, or one as long as its operand's cells. -/
theorem legal_of_transliteration {A1 A2 : Alphabet} {op : StrOperand → Op Result}
    (hlength : ∀ t, 26 < t.slen.toNat → op t = raise .invalidLength 0)
    (hcharacter : ∀ t, t.slen.toNat ≤ 26 → ¬ Over A1 t.cells → op t = raise .invalidCharacter (firstBad A1 t.cells))
    (hspelling : ∀ (l : BitVec 8) (ds : List Digit), l.toNat ≤ 26 →
      op { slen := l, cells := ds.map A1.symbol } = .ok { r := ds.map A2.symbol })
    {str : StrOperand} (hcells : str.cells.length ≤ 26) : (Response.ok (finish (op str)).results).Legal := by
  by_cases hlen : str.slen.toNat ≤ 26
  · by_cases hover : Over A1 str.cells
    · obtain ⟨l, cells⟩ := str
      obtain ⟨ds, rfl⟩ := exists_spelling_of_over hover
      rw [hspelling l ds hlen]
      exact legal_of_spelling A2 (by simpa using hcells)
    · rw [hcharacter str hlen hover]
      exact legal_of_no_string rfl
  · rw [hlength str (Nat.lt_of_not_le hlen)]
    exact legal_of_no_string rfl

theorem legal_opToDig_results (sh : Shape) (v : Word) : (Response.ok (finish (opToDig sh v)).results).Legal := by
  by_cases hbig : 2 ^ sh.fieldBits ≤ v.toNat
  · rw [opToDig_overflow hbig]
    exact legal_of_no_string rfl
  · have hfits := Nat.lt_of_not_le hbig
    rw [opToDig_digits hfits]
    exact legal_of_spelling .num ((length_fixedDigits_chars hfits).trans_le (chars_le_strCells sh))

/-- The results of every well-formed instruction are legal: the operations that write a string write a spelling of
no more than 26 digits. -/
theorem legal_results_of_wf {i : Instr} (hwf : i.wf = true) : (Response.ok (finish (opOf i)).results).Legal := by
  cases i with
  | encode high low =>
    rw [opOf, opEncode_eq]
    exact legal_of_spelling .crock (idDigits_length high low).le
  | decode text => exact legal_of_no_string (opDecode_results text).2
  | split high low => exact legal_of_no_string (opSplit_results high low).1
  | join time random1 random2 => exact legal_of_no_string (opJoin_results time random1 random2).2
  | toDig shape value => exact legal_opToDig_results shape value
  | fromDig shape digits =>
    obtain ⟨-, -, -, hr⟩ := opFromDig_results shape digits
    exact legal_of_no_string hr
  | xlitF str =>
    exact legal_of_transliteration (fun _ => opXlitF_length) (fun _ => opXlitF_character) opXlitF_spelling
      (length_cells_le_of_wf hwf)
  | xlitR str =>
    exact legal_of_transliteration (fun _ => opXlitR_length) (fun _ => opXlitR_character) opXlitR_spelling
      (length_cells_le_of_wf hwf)

theorem toNat_epos_le (p : Nat) : (BitVec.ofNat 5 p).toNat ≤ p := by
  rw [BitVec.toNat_ofNat]
  exact Nat.mod_le _ _

/-- A request's response is legal: an error reports the position of its cause, which the cells and the operands
bound. -/
theorem responseOf_legal (q : ReqWord) : (responseOf q).Legal := by
  cases hq : decodeReq q with
  | error e =>
    rw [responseOf_of_error hq]
    exact rfl
  | ok i =>
    rw [responseOf_of_ok hq]
    obtain ⟨res, h⟩ | ⟨-, h⟩ | ⟨p, hp, h⟩ | ⟨p, hp, h⟩ := finish_opOf_cases i
    · have hres := legal_results_of_wf (decodedInstructionsAreWellFormed q i hq)
      rw [h] at hres ⊢
      exact hres
    · rw [h]
      exact rfl
    · rw [h]
      exact (toNat_epos_le p).trans (characterCause_le hq hp)
    · rw [h]
      exact (toNat_epos_le p).trans (overflowCause_le_two hp)

/-- Settles O19: every response of a next state stood in the state before, or is that of the request the step
accepted. -/
theorem stepKeepsResponsesLegal : Obligations.StepKeepsResponsesLegal := by
  unfold Obligations.StepKeepsResponsesLegal
  intro s t hs h r hr
  rw [List.mem_append] at hr
  have hpending (hp : r ∈ s.pending) : r.Legal := hs r (List.mem_append_left _ hp)
  have hdelivered (hd : r ∈ s.delivered) : r.Legal := hs r (List.mem_append_right _ hd)
  obtain ⟨-, rfl⟩ | ⟨q, es, -, rfl⟩ | ⟨es, -, rfl⟩ | ⟨es, -, rfl⟩ := step_cases h
  · exact hr.elim hpending hdelivered
  · obtain hp | hd := hr
    · obtain hp | hp := List.mem_append.mp hp
      · exact hpending hp
      · exact List.mem_singleton.mp hp ▸ responseOf_legal q
    · exact hdelivered hd
  · obtain hp | hd := hr
    · exact hpending (List.mem_of_mem_tail hp)
    · obtain hd | hp := List.mem_append.mp hd
      · exact hdelivered hd
      · exact hpending (List.mem_of_mem_head? (Option.mem_toList.mp hp))
  · exact hdelivered (hr.resolve_left List.not_mem_nil)

/-- Settles O20: there is no response. -/
theorem resetResponsesAreLegal : Obligations.ResetResponsesAreLegal := by
  unfold Obligations.ResetResponsesAreLegal State.Legal
  intro r hr
  rw [reset_pending, reset_delivered] at hr
  exact absurd hr List.not_mem_nil

/-! ### Runs -/

theorem answerAlone_eq (q : ReqWord) : answerAlone q = some (responseOf q) := by
  rw [answerAlone, step_present]
  rfl

theorem map_answerAlone (qs : List ReqWord) : qs.map answerAlone = (qs.map responseOf).map some := by
  rw [List.map_map]
  exact List.map_congr_left fun q _ => answerAlone_eq q

/-- A run over host actions without a reset keeps the delivered and the pending responses in order, with the responses
of the requests behind them: a take only moves the border between the two. -/
theorem run_without_reset {es : List HostEvent} (h : ∀ e ∈ es, e ≠ .reset) (p d : List Response) :
    ∃ t : State, core.run es.length ({ events := es, pending := p, delivered := d } : State) = .next t ∧
      t.events = [] ∧ t.delivered ++ t.pending = d ++ p ++ (requestsOf es).map responseOf := by
  induction es generalizing p d with
  | nil => exact ⟨_, rfl, rfl, by simp [requestsOf]⟩
  | cons e es ih =>
    have ih' := ih fun x hx => h x (List.mem_cons_of_mem _ hx)
    rw [List.length_cons]
    cases e with
    | request q =>
      obtain ⟨t, hrun, hev, hresponses⟩ := ih' (p ++ [responseOf q]) d
      exact ⟨t, (run_succ (step_request q es p d)).trans hrun, hev, by simpa [requestsOf] using hresponses⟩
    | take =>
      obtain ⟨t, hrun, hev, hresponses⟩ := ih' p.tail (d ++ p.head?.toList)
      refine ⟨t, (run_succ (step_take es p d)).trans hrun, hev, hresponses.trans ?_⟩
      cases p <;> simp [requestsOf]
    | reset => exact absurd rfl (h _ List.mem_cons_self)

/-- Settles O21: `run_without_reset`, and the response a request gets alone is its `responseOf`. -/
theorem everyAcceptedRequestIsAnsweredInOrder : Obligations.EveryAcceptedRequestIsAnsweredInOrder := by
  unfold Obligations.EveryAcceptedRequestIsAnsweredInOrder
  rintro ⟨es, p, d⟩ h
  obtain ⟨t, hrun, hev, hresponses⟩ := run_without_reset h p d
  exact ⟨t, _, hrun, hev, hresponses, map_answerAlone _⟩

/-- Two steps serve one request and deliver its response. -/
theorem run_runOf (qs : List ReqWord) (d : List Response) :
    core.run (2 * qs.length) ({ events := runOf qs, pending := [], delivered := d } : State) =
      .next { events := [], pending := [], delivered := d ++ qs.map responseOf } := by
  induction qs generalizing d with
  | nil => rw [List.map_nil, List.append_nil]; rfl
  | cons q qs ih =>
    rw [List.length_cons, Nat.mul_succ, runOf]
    refine (run_succ (step_request q _ [] d)).trans ((run_succ (step_take _ _ _)).trans ((ih _).trans ?_))
    simp

/-- Settles O22: `run_runOf` from the state right after reset, where nothing was delivered. -/
theorem runEndsWithTheListOfResponses : Obligations.RunEndsWithTheListOfResponses := by
  unfold Obligations.RunEndsWithTheListOfResponses
  exact fun qs => ⟨_, run_runOf qs [], map_answerAlone qs⟩

/-! ### Systems of instances (R193) -/

section
variable {sys : System} {k : Nat}

theorem stepInstance_of_none (h : sys[k]? = none) : stepInstance k sys = sys := by
  rw [stepInstance, h]

theorem stepInstance_of_some {s t : State} (h : sys[k]? = some s) (hstep : step s = .next t) :
    stepInstance k sys = sys.set k t := by
  simp only [stepInstance, h, hstep]

/-- A step at one place of the list leaves every other place as it was. -/
theorem stepInstance_getElem?_of_ne {j : Nat} (hne : j ≠ k) : (stepInstance k sys)[j]? = sys[j]? := by
  cases hk : sys[k]? with
  | none => rw [stepInstance_of_none hk]
  | some s =>
    obtain ⟨t, ht⟩ := step_next s
    rw [stepInstance_of_some hk ht, List.getElem?_set_ne hne.symm]

theorem stepInstance_getElem?_self {s t : State} (h : sys[k]? = some s) (hstep : step s = .next t) :
    (stepInstance k sys)[k]? = some t := by
  obtain ⟨hlt, -⟩ := List.getElem?_eq_some_iff.mp h
  rw [stepInstance_of_some h hstep, List.getElem?_set_self hlt]

/-- The two steps write two different places of the list. -/
theorem stepInstance_comm {j : Nat} (hne : j ≠ k) :
    stepInstance j (stepInstance k sys) = stepInstance k (stepInstance j sys) := by
  have hj' : (stepInstance k sys)[j]? = sys[j]? := stepInstance_getElem?_of_ne hne
  have hk' : (stepInstance j sys)[k]? = sys[k]? := stepInstance_getElem?_of_ne hne.symm
  cases hj : sys[j]? with
  | none => rw [stepInstance_of_none (hj'.trans hj), stepInstance_of_none hj]
  | some s =>
    obtain ⟨t, ht⟩ := step_next s
    rw [stepInstance_of_some (hj'.trans hj) ht]
    cases hk : sys[k]? with
    | none => rw [stepInstance_of_none (hk'.trans hk), stepInstance_of_none hk, stepInstance_of_some hj ht]
    | some s' =>
      obtain ⟨t', ht'⟩ := step_next s'
      rw [stepInstance_of_some (hk'.trans hk) ht', stepInstance_of_some hk ht', stepInstance_of_some hj ht,
        List.set_comm _ _ hne.symm]

end

/-- Settles O23: a step writes one place of the list of instances, and no other. -/
theorem instancesDoNotDisturbEachOther : Obligations.InstancesDoNotDisturbEachOther := by
  unfold Obligations.InstancesDoNotDisturbEachOther
  intro sys j k hne
  refine ⟨stepInstance_getElem?_of_ne hne, stepInstance_comm hne, fun s hs => ?_⟩
  obtain ⟨t, ht⟩ := step_next s
  exact ⟨t, ht, stepInstance_getElem?_self hs ht⟩

end Sys2Proof.Proofs
end
